-- ==== Sys2Proof/Word.lean ====
section
/-! DEFINITION. The words of the block's boundary.

The command word and the cause code have fixed widths and are bit vectors. Every other port is as wide as the
configuration says (30_encoding.md R78), so its value is the unsigned integer its bits hold (00_scope.md R18), and
`Sys2Proof.Machine.State.Inv` says that it fits (log entry 23). -/

namespace Sys2Proof

/-- The 32-bit command word `cmd` (30_encoding.md R81). -/
abbrev CmdWord := BitVec 32

/-- The 2-bit output `err_code` (30_encoding.md R78). -/
abbrev ErrCode := BitVec 2

/-- The bits on a port whose width the configuration gives, bit 0 least significant, read as an unsigned
integer (00_scope.md R17, R18). A posit pattern is one of these, W bits wide. -/
abbrev Bits := Nat

end Sys2Proof
end

