-- ==== Sys2Proof/Machine/Bits.lean ====
section
/-! DEFINITION. The bit and arithmetic primitives of 00_scope.md R17 to R19, over natural numbers of a stated width. -/

namespace Sys2Proof.Machine

/-- The n bits of v from bit lo up, `v[lo+n-1 : lo]`; a slice of no bits is 0 (00_scope.md R17). -/
def bitsAt (v lo n : Nat) : Nat := v / 2 ^ lo % 2 ^ n

/-- `tc_N(v) = (2^N - v) mod 2^N`, the N-bit two's complement (00_scope.md R19). -/
def tc (n v : Nat) : Nat := (2 ^ n - v) % 2 ^ n

/-- `sext_N(v)`: the N-bit two's-complement field v as a signed integer (00_scope.md R18). -/
def sext (n v : Nat) : Int := if v < 2 ^ (n - 1) then (v : Int) else (v : Int) - 2 ^ n

/-- The N-bit two's-complement field that holds the integer x (00_scope.md R18). -/
def signedBits (n : Nat) (x : Int) : Nat := (x % 2 ^ n).toNat

/-- `rep(n, 1)`: n ones (00_scope.md R18). -/
def ones (n : Nat) : Nat := 2 ^ n - 1

/-- `clog2(x)`: the least c with `2^c >= x`; `clog2(1) = 0` (00_scope.md R19). -/
def clog2 (x : Nat) : Nat := if x ≤ 1 then 0 else (x - 1).log2 + 1

/-- `lz_N(v)`: the index of the most significant set bit of a nonzero v (00_scope.md R19). -/
def leadingOne (v : Nat) : Nat := v.log2

/-- The bit b as the number 0 or 1. -/
def bitVal (b : Bool) : Nat := if b then 1 else 0

end Sys2Proof.Machine
end

