-- ==== Sys2Proof/Syntax.lean ====
section
/-! DEFINITION. The commands: one constructor per row of spec/opcode_table.json (30_encoding.md R84).

A constructor's arguments are the free fields of its row: the immediate IDX (R82) as a natural number, and the bits
V, RS and RD (R81, R83). The posit operands are not part of a command word; they arrive on ports (R82). -/

namespace Sys2Proof

/-- A command of the block (30_encoding.md R84). -/
inductive Instr where
  /-- `BF_RESET`, OP 0x01 (also spelled `BF_CLEAR`, R89). -/
  | bfReset
  /-- `BF_GET i`, OP 0x02. -/
  | bfGet (idx : Nat)
  /-- `BF_SET i, v`, OP 0x03. -/
  | bfSet (idx : Nat) (v : Bool)
  /-- `BF_SHL s`, OP 0x04. -/
  | bfShl (amount : Nat)
  /-- `BF_SHR s`, OP 0x05. -/
  | bfShr (amount : Nat)
  /-- `BF_RUN i`, OP 0x06. -/
  | bfRun (idx : Nat)
  /-- `BF_LOAD`, OP 0x07. -/
  | bfLoad
  /-- `BF_READ`, OP 0x08. -/
  | bfRead
  /-- `P_REGIME`, OP 0x09. -/
  | pRegime (rs : Bool)
  /-- `P_DECODE`, OP 0x0A. -/
  | pDecode (rs : Bool)
  /-- `P_ISZERO`, OP 0x0B. -/
  | pIsZero (rs : Bool)
  /-- `P_ISNAR`, OP 0x0C (also spelled `P_ISINF`, R89). -/
  | pIsNar (rs : Bool)
  /-- `P_ENCODE`, OP 0x0D. -/
  | pEncode (rd : Bool)
  /-- `P_NORM`, OP 0x0E. -/
  | pNorm
  /-- `P_DENORM sh`, OP 0x0F. -/
  | pDenorm (shift : Nat)
  /-- `P_NEG`, OP 0x10. -/
  | pNeg (rs rd : Bool)
  /-- `P_ADD`, OP 0x11. -/
  | pAdd (rs rd : Bool)
  /-- `P_SUB`, OP 0x12. -/
  | pSub (rs rd : Bool)
  deriving DecidableEq, Repr

/-- The mnemonic of a command's row in spec/opcode_table.json. -/
def Instr.mnemonic : Instr → String
  | .bfReset => "BF_RESET"
  | .bfGet _ => "BF_GET"
  | .bfSet _ _ => "BF_SET"
  | .bfShl _ => "BF_SHL"
  | .bfShr _ => "BF_SHR"
  | .bfRun _ => "BF_RUN"
  | .bfLoad => "BF_LOAD"
  | .bfRead => "BF_READ"
  | .pRegime _ => "P_REGIME"
  | .pDecode _ => "P_DECODE"
  | .pIsZero _ => "P_ISZERO"
  | .pIsNar _ => "P_ISNAR"
  | .pEncode _ => "P_ENCODE"
  | .pNorm => "P_NORM"
  | .pDenorm _ => "P_DENORM"
  | .pNeg _ _ => "P_NEG"
  | .pAdd _ _ => "P_ADD"
  | .pSub _ _ => "P_SUB"

end Sys2Proof
end

