-- ==== Sys2Proof/WellFormed.lean ====
section
/-! DEFINITION. Which commands a command word can carry: the immediate IDX is 16 bits, `0 .. 65535` (30_encoding.md
R82). V, RS and RD are single bits and need no check. The legality of a configuration (R264) is
`Config.Legal` in Machine/Params.lean. -/

namespace Sys2Proof

/-- An immediate that fits the 16-bit IDX field (30_encoding.md R82). -/
abbrev FitsIdx (n : Nat) : Prop := n < 65536

/-- The command's immediate, for the commands that use IDX (30_encoding.md R82, R84). -/
def Instr.imm? : Instr → Option Nat
  | .bfReset => none
  | .bfGet i => some i
  | .bfSet i _ => some i
  | .bfShl s => some s
  | .bfShr s => some s
  | .bfRun i => some i
  | .bfLoad => none
  | .bfRead => none
  | .pRegime _ => none
  | .pDecode _ => none
  | .pIsZero _ => none
  | .pIsNar _ => none
  | .pEncode _ => none
  | .pNorm => none
  | .pDenorm sh => some sh
  | .pNeg _ _ => none
  | .pAdd _ _ => none
  | .pSub _ _ => none

/-- A command that some command word encodes. -/
abbrev Instr.WellFormed (i : Instr) : Prop := FitsIdx (i.imm?.getD 0)

end Sys2Proof
end

