-- ==== Sys2Proof/Decode.lean ====
section
/-! DEFINITION. Command words: the decoder, the encoder and the opcode table (30_encoding.md R81 to R87).

The decoder reads OP and the other fields and rejects, by name, a reserved bit or a field the command does not use
(R86, R87). The table of masks and matches of R85 stands beside it as data; that the two agree is an obligation. A
command word crosses the boundary 32 bits in parallel, so there is no byte order here (20_memory.md R51). -/

namespace Sys2Proof

open Sys2Proof.Machine

/-- Why a word selects no command. The block reports every one of them as the one cause IllegalCommand (30_encoding.md
R86, 60_exceptions.md R233); the finer names are the model's (log entry 21). -/
inductive Reject where
  /-- OP is 0x00 or 0x13 to 0x1F. -/
  | unassignedOp
  /-- A bit of `cmd[15:8]` is set. -/
  | reservedBits
  /-- V is set in a command that does not use it. -/
  | vNotUsed
  /-- RS is set in a command that does not use it. -/
  | rsNotUsed
  /-- RD is set in a command that does not use it. -/
  | rdNotUsed
  /-- IDX is nonzero in a command that does not use it. -/
  | idxNotUsed
  deriving DecidableEq, Repr

/-- `OP = cmd[4:0]` (R81). -/
def opField (w : CmdWord) : Nat := bitsAt w.toNat 0 5

/-- `V = cmd[5]` (R81). -/
def vField (w : CmdWord) : Bool := bitsAt w.toNat 5 1 == 1

/-- `RS = cmd[6]` (R81). -/
def rsField (w : CmdWord) : Bool := bitsAt w.toNat 6 1 == 1

/-- `RD = cmd[7]` (R81). -/
def rdField (w : CmdWord) : Bool := bitsAt w.toNat 7 1 == 1

/-- `cmd[15:8]`, reserved, must be 0 (R81). -/
def reservedField (w : CmdWord) : Nat := bitsAt w.toNat 8 8

/-- `IDX = zext_16(cmd[31:16])` (R81, R82). -/
def idxField (w : CmdWord) : Nat := bitsAt w.toNat 16 16

/-- The fields a command leaves free, as the columns V, RS, RD and IDX of R84's table say. -/
structure FreeFields where
  v : Bool := false
  rs : Bool := false
  rd : Bool := false
  idx : Bool := false
  deriving DecidableEq, Repr

/-- R84's column entries of an opcode; none for an opcode that selects no command. -/
def freeFields : Nat → Option FreeFields
  | 0x01 => some {}
  | 0x02 => some { idx := true }
  | 0x03 => some { v := true, idx := true }
  | 0x04 => some { idx := true }
  | 0x05 => some { idx := true }
  | 0x06 => some { idx := true }
  | 0x07 => some {}
  | 0x08 => some {}
  | 0x09 => some { rs := true }
  | 0x0A => some { rs := true }
  | 0x0B => some { rs := true }
  | 0x0C => some { rs := true }
  | 0x0D => some { rd := true }
  | 0x0E => some {}
  | 0x0F => some { idx := true }
  | 0x10 => some { rs := true, rd := true }
  | 0x11 => some { rs := true, rd := true }
  | 0x12 => some { rs := true, rd := true }
  | _ => none

/-- The command an opcode selects, with its fields (R84). -/
def selected (op : Nat) (v rs rd : Bool) (idx : Nat) : Option Instr :=
  match op with
  | 0x01 => some .bfReset
  | 0x02 => some (.bfGet idx)
  | 0x03 => some (.bfSet idx v)
  | 0x04 => some (.bfShl idx)
  | 0x05 => some (.bfShr idx)
  | 0x06 => some (.bfRun idx)
  | 0x07 => some .bfLoad
  | 0x08 => some .bfRead
  | 0x09 => some (.pRegime rs)
  | 0x0A => some (.pDecode rs)
  | 0x0B => some (.pIsZero rs)
  | 0x0C => some (.pIsNar rs)
  | 0x0D => some (.pEncode rd)
  | 0x0E => some .pNorm
  | 0x0F => some (.pDenorm idx)
  | 0x10 => some (.pNeg rs rd)
  | 0x11 => some (.pAdd rs rd)
  | 0x12 => some (.pSub rs rd)
  | _ => none

/-- The first field of w that its command does not use and that is not zero (R85, R86). -/
def misusedField (f : FreeFields) (w : CmdWord) : Option Reject :=
  if reservedField w ≠ 0 then some .reservedBits
  else if f.v = false ∧ vField w = true then some .vNotUsed
  else if f.rs = false ∧ rsField w = true then some .rsNotUsed
  else if f.rd = false ∧ rdField w = true then some .rdNotUsed
  else if f.idx = false ∧ idxField w ≠ 0 then some .idxNotUsed
  else none

/-- The decoder: total on every 32-bit word (30_encoding.md R86, R87). -/
def decode (w : CmdWord) : Except Reject Instr :=
  match freeFields (opField w),
      selected (opField w) (vField w) (rsField w) (rdField w) (idxField w) with
  | some f, some i =>
    match misusedField f w with
    | some r => .error r
    | none => .ok i
  | _, _ => .error .unassignedOp

/-- The opcode of a command (R84). -/
def Instr.op : Instr → Nat
  | .bfReset => 0x01
  | .bfGet _ => 0x02
  | .bfSet _ _ => 0x03
  | .bfShl _ => 0x04
  | .bfShr _ => 0x05
  | .bfRun _ => 0x06
  | .bfLoad => 0x07
  | .bfRead => 0x08
  | .pRegime _ => 0x09
  | .pDecode _ => 0x0A
  | .pIsZero _ => 0x0B
  | .pIsNar _ => 0x0C
  | .pEncode _ => 0x0D
  | .pNorm => 0x0E
  | .pDenorm _ => 0x0F
  | .pNeg _ _ => 0x10
  | .pAdd _ _ => 0x11
  | .pSub _ _ => 0x12

/-- The V, RS and RD bits of a command's word (R84). -/
def Instr.flagBits : Instr → Bool × Bool × Bool
  | .bfSet _ v => (v, false, false)
  | .pRegime rs => (false, rs, false)
  | .pDecode rs => (false, rs, false)
  | .pIsZero rs => (false, rs, false)
  | .pIsNar rs => (false, rs, false)
  | .pEncode rd => (false, false, rd)
  | .pNeg rs rd => (false, rs, rd)
  | .pAdd rs rd => (false, rs, rd)
  | .pSub rs rd => (false, rs, rd)
  | .bfReset => (false, false, false)
  | .bfGet _ => (false, false, false)
  | .bfShl _ => (false, false, false)
  | .bfShr _ => (false, false, false)
  | .bfRun _ => (false, false, false)
  | .bfLoad => (false, false, false)
  | .bfRead => (false, false, false)
  | .pNorm => (false, false, false)
  | .pDenorm _ => (false, false, false)

/-- The word with the given fields (R81). -/
def wordOf (op : Nat) (v rs rd : Bool) (idx : Nat) : CmdWord :=
  BitVec.ofNat 32 (op + 2 ^ 5 * bitVal v + 2 ^ 6 * bitVal rs + 2 ^ 7 * bitVal rd + 2 ^ 16 * idx)

/-- The encoder: the command word of a well-formed command (30_encoding.md R81, R84). -/
def encode (i : Instr) : CmdWord :=
  wordOf i.op i.flagBits.1 i.flagBits.2.1 i.flagBits.2.2 (i.imm?.getD 0)

/-- A row of the opcode table (30_encoding.md R85, opcode_table.json). -/
structure OpRow where
  mnemonic : String
  mask : CmdWord
  value : CmdWord
  deriving DecidableEq, Repr

/-- The mask and match of every command, as 30_encoding.md R85 gives them. -/
def opcodeTable : List OpRow :=
  [ ⟨"BF_RESET", 0xFFFFFFFF#32, 0x00000001#32⟩,
    ⟨"BF_GET", 0x0000FFFF#32, 0x00000002#32⟩,
    ⟨"BF_SET", 0x0000FFDF#32, 0x00000003#32⟩,
    ⟨"BF_SHL", 0x0000FFFF#32, 0x00000004#32⟩,
    ⟨"BF_SHR", 0x0000FFFF#32, 0x00000005#32⟩,
    ⟨"BF_RUN", 0x0000FFFF#32, 0x00000006#32⟩,
    ⟨"BF_LOAD", 0xFFFFFFFF#32, 0x00000007#32⟩,
    ⟨"BF_READ", 0xFFFFFFFF#32, 0x00000008#32⟩,
    ⟨"P_REGIME", 0xFFFFFFBF#32, 0x00000009#32⟩,
    ⟨"P_DECODE", 0xFFFFFFBF#32, 0x0000000A#32⟩,
    ⟨"P_ISZERO", 0xFFFFFFBF#32, 0x0000000B#32⟩,
    ⟨"P_ISNAR", 0xFFFFFFBF#32, 0x0000000C#32⟩,
    ⟨"P_ENCODE", 0xFFFFFF7F#32, 0x0000000D#32⟩,
    ⟨"P_NORM", 0xFFFFFFFF#32, 0x0000000E#32⟩,
    ⟨"P_DENORM", 0x0000FFFF#32, 0x0000000F#32⟩,
    ⟨"P_NEG", 0xFFFFFF3F#32, 0x00000010#32⟩,
    ⟨"P_ADD", 0xFFFFFF3F#32, 0x00000011#32⟩,
    ⟨"P_SUB", 0xFFFFFF3F#32, 0x00000012#32⟩ ]

/-- The word w selects the command of this row (30_encoding.md R85). -/
abbrev OpRow.Selects (row : OpRow) (w : CmdWord) : Prop := w &&& row.mask = row.value

/-- The instruction the decoder reads from the table's numbering of a word's bits: every command word is exactly 32
bits (R87), so a number that needs more is no command word. -/
def decodeTableWord (_nbits w : Nat) : Option Instr :=
  if w < 2 ^ 32 then
    match decode (BitVec.ofNat 32 w) with
    | .ok i => some i
    | .error _ => none
  else none

end Sys2Proof
end

