-- ==== Sys2Proof/Config.lean ====
section
/-! DEFINITION. The build-time configuration (00_scope.md R10, R11, R13, R15; 92_eei_decisions.md D26).

The five widths are arguments of the model: a `State` carries its configuration, no command reads or changes it
(R16), and every statement is about every configuration. The derived constants of R12 and the legality check of
R264 are in Machine/Params.lean. -/

namespace Sys2Proof

/-- The configuration a block is built with (00_scope.md R12 names the constants derived from it). -/
structure Config where
  /-- Total width W of a pattern and of BF (R10). -/
  W : Nat
  /-- Exponent-field width E (R11). -/
  E : Nat
  /-- Internal mantissa width of the normalizer and the adder (R13). -/
  MW : Nat
  /-- Width of the encoder's fraction input `u_frac` (R15). -/
  FIW : Nat
  /-- Width of the encoder's signed scale input `u_scale` (R15). -/
  SW : Nat
  deriving DecidableEq, Repr

/-- The configuration `State.reset` is built with: W = 8, E = 1 and the spec's default widths for them (R13, R15;
95_test_vectors.md §V0 gives MW_EXACT = 30).
DESIGN CHOICE (log entry 1, unsafe): the spec fixes no W and no E. -/
def Config.build : Config := { W := 8, E := 1, MW := 30, FIW := 30, SW := 32 }

/-- HOST_MAP, the block's place in a host address map, if it has one (92_eei_decisions.md D25, 93 P7): a platform
parameter that no rule reads, so it has no body and nothing here uses it (log entry 19). -/
opaque Config.hostMap : Option Nat

end Sys2Proof
end

