-- ==== Sys2Proof/Machine/Params.lean ====
section
/-! DEFINITION. The derived constants of a configuration (00_scope.md R12) and its legality (70_reset_and_hazards.md
R264), under the spec's own names. -/

namespace Sys2Proof

open Sys2Proof.Machine

/-- `useed = 2^(2^E)`, the regime scale base. -/
def Config.useed (c : Config) : Nat := 2 ^ 2 ^ c.E

/-- `KMAX = W - 2`, the largest k a pattern can carry. -/
def Config.KMAX (c : Config) : Nat := c.W - 2

/-- `SMAX = KMAX * 2^E`, the scale of maxpos. -/
def Config.SMAX (c : Config) : Nat := c.KMAX * 2 ^ c.E

/-- `FB_MAX = max(0, W - 3 - E)`, the most fraction bits any pattern carries (natural subtraction stops at 0). -/
def Config.FB_MAX (c : Config) : Nat := c.W - 3 - c.E

/-- `FBW = max(1, FB_MAX)`, the width of the fraction output. -/
def Config.FBW (c : Config) : Nat := max 1 c.FB_MAX

/-- `EW = max(1, E)`, the width of the exponent output. -/
def Config.EW (c : Config) : Nat := max 1 c.E

/-- `D_MAX = 2 * SMAX`, the largest alignment shift between two patterns. -/
def Config.D_MAX (c : Config) : Nat := 2 * c.SMAX

/-- `MW_EXACT = D_MAX + FB_MAX + 2`, the adder width at which no bit is lost (R14). -/
def Config.MW_EXACT (c : Config) : Nat := c.D_MAX + c.FB_MAX + 2

/-- `CW = clog2(W + 1)`, the width of bit counts. -/
def Config.CW (c : Config) : Nat := clog2 (c.W + 1)

/-- `KW = clog2(W) + 1`, the width of a signed k. -/
def Config.KW (c : Config) : Nat := clog2 c.W + 1

/-- `TW = clog2(SMAX + 1) + 1`, the width of a signed pattern scale. -/
def Config.TW (c : Config) : Nat := clog2 (c.SMAX + 1) + 1

/-- `NAR`: 1 followed by W - 1 zeros. -/
def Config.NAR (c : Config) : Bits := 2 ^ (c.W - 1)

/-- `MAXPOS`: 0 followed by W - 1 ones. -/
def Config.MAXPOS (c : Config) : Bits := ones (c.W - 1)

/-- `MINPOS`: W - 1 zeros followed by 1. -/
def Config.MINPOS (_ : Config) : Bits := 1

/-- A legal configuration (70_reset_and_hazards.md R264; `E >= 0` holds of every natural number). The step refuses
any other by name. -/
abbrev Config.Legal (c : Config) : Prop :=
  2 ≤ c.W ∧ c.W ≤ 65536 ∧ c.FBW + 1 ≤ c.MW ∧ 1 ≤ c.FIW ∧ 2 ≤ c.SW

/-- The configuration (W, E) with the spec's default widths: `MW = MW_EXACT` (R13), `FIW = MW` and `SW = 32` (R15). -/
def Config.ofFormat (w e : Nat) : Config :=
  let mw := Config.MW_EXACT { W := w, E := e, MW := 0, FIW := 0, SW := 0 }
  { W := w, E := e, MW := mw, FIW := mw, SW := 32 }

end Sys2Proof
end

