-- ==== Sys2Proof/Machine/State.lean ====
section
/-! DEFINITION. The state of one block and what the host sees of it (10_state.md, 30_encoding.md R78, R80;
60_exceptions.md R232; 70_reset_and_hazards.md R260, R268).

BF is the block's only hardware state (R30, R34 to R39). Beside it the state holds the build-time configuration (R40),
the ports' values, the model's fault record (R41), the last command's response (R269) and the host's moves that wait. -/

namespace Sys2Proof.Machine

/-- One bit of BF: a value, or the spec's unwritten mark (10_state.md R31). -/
inductive BfBit where
  /-- No command has written the bit since reset, or a shift moved such a bit here (R31, R106, R107). -/
  | unwritten
  /-- A written bit. -/
  | val (b : Bool)
  deriving DecidableEq, Repr

/-- The reasons of `raise Fault(reason)` (60_exceptions.md R236). These are effects of the block, taken as a next state
(`State.raise`); they are not stops of the model. -/
inductive Cause where
  /-- A command word that selects no command (R233). -/
  | illegalCommand
  /-- A bit index that is not below W (R235). -/
  | indexOutOfRange
  /-- A read of an unwritten bit of BF (R234). -/
  | unwrittenRead
  deriving DecidableEq, Repr

/-- An entry `(n, cmd, reason)` of the fault record (60_exceptions.md R232). -/
structure FaultEntry where
  n : Nat
  cmd : CmdWord
  cause : Cause
  deriving DecidableEq, Repr

/-- The `dec_*` outputs of `P_DECODE` (30_encoding.md R78, R79), as the bits on their ports. -/
structure DecOut where
  decZero : Bool := false
  decNar : Bool := false
  decSign : Bool := false
  /-- KW bits, signed. -/
  decK : Bits := 0
  /-- CW bits: regime bits consumed. -/
  decNr : Bits := 0
  /-- CW bits: exponent bits present. -/
  decNe : Bits := 0
  /-- EW bits. -/
  decE : Bits := 0
  /-- CW bits: fraction bits present. -/
  decNf : Bits := 0
  /-- FBW bits, left-aligned. -/
  decFrac : Bits := 0
  /-- TW bits, signed. -/
  decScale : Bits := 0
  deriving DecidableEq, Repr

/-- The outputs a command's rule drives. A port that is `none` is not driven: its value is UNSPECIFIED and the record
has no such field (30_encoding.md R80, 93 U2, U3). -/
structure Outputs where
  /-- W bits: a posit result, or BF's contents. -/
  r : Option Bits := none
  bit : Option Bool := none
  /-- CW bits. -/
  cnt : Option Bits := none
  /-- KW bits, signed. -/
  k : Option Bits := none
  dec : Option DecOut := none
  /-- MW bits. -/
  rn : Option Bits := none
  deriving DecidableEq, Repr

/-- A command's response: `err` and `err_code`, which every command drives (60_exceptions.md R231), and the outputs its
rule drives. -/
structure Response where
  err : Bool
  errCode : ErrCode
  out : Outputs
  deriving DecidableEq, Repr

/-- The operand input ports (30_encoding.md R77, R78), as the host drives them. -/
structure Inputs where
  /-- W bits: posit operand A. -/
  a : Bits := 0
  /-- W bits: posit operand B. -/
  b : Bits := 0
  /-- W bits: write data of `BF_LOAD`. -/
  wd : Bits := 0
  /-- MW bits: the normalizer's input. -/
  n : Bits := 0
  uNar : Bool := false
  uZero : Bool := false
  uSign : Bool := false
  /-- SW bits, signed. -/
  uScale : Bits := 0
  /-- FIW bits. -/
  uFrac : Bits := 0
  uSticky : Bool := false
  deriving DecidableEq, Repr

/-- What the host can do (70_reset_and_hazards.md R268). BF is observed by commands, so that is no move of its own. -/
inductive HostMove where
  /-- Issue a command: a word on `cmd`, with the operand inputs. -/
  | issue (cmd : CmdWord) (inp : Inputs)
  /-- The platform's block reset event (R260). -/
  | reset
  deriving DecidableEq, Repr

/-- Why the model stops. -/
inductive Fault where
  /-- Raised by `step` alone, when no host move waits: the block never acts without a command (70_reset_and_hazards.md
  R268). Safe: the model claims nothing of a block that was given nothing to do (log entry 3). -/
  | noCommand
  deriving DecidableEq, Repr

/-- Why the model gives no meaning. -/
inductive Refusal where
  /-- Raised by `exec`'s arm of an instruction without a meaning. No arm does. Safe. -/
  | notModelled (mnemonic : String)
  /-- Raised by `step` alone, for a configuration outside the bounds of 70_reset_and_hazards.md R264: "A model refuses,
  by name, any configuration outside these bounds." Safe (log entry 17). -/
  | illegalConfiguration
  deriving DecidableEq, Repr

/-- The state of one block. -/
structure State where
  /-- The build-time configuration (10_state.md R40); no step changes it (00_scope.md R16). -/
  cfg : Config
  /-- The register BF, bit 0 first; W bits (10_state.md R30, R31). -/
  bf : List BfBit
  /-- The command word on the port `cmd` (30_encoding.md R78). -/
  cmd : CmdWord
  /-- The operand input ports (30_encoding.md R78). -/
  inp : Inputs
  /-- The host's sequence index of the command on the ports (10_state.md R36). -/
  seq : Nat
  /-- The last command's response; `none` until the first command has completed (10_state.md R40, 93 U4). -/
  resp : Option Response
  /-- The fault record, oldest first (10_state.md R41). -/
  faults : List FaultEntry
  /-- The host's moves not yet made, oldest first (70_reset_and_hazards.md R268; the model's own field, log entry 2). -/
  pending : List HostMove
  deriving DecidableEq, Repr

/-- The state right after block reset of a block built with configuration c, the launch premise `fresh`
(10_state.md R40, 70_reset_and_hazards.md R263). The sequence index, the input ports and the empty list of moves are
the model's choices (log entries 2, 6, 7). -/
def State.fresh (c : Config) : State :=
  { cfg := c
    bf := List.replicate c.W .unwritten
    cmd := 0
    inp := {}
    seq := 0
    resp := none
    faults := []
    pending := [] }

/-- The machine right after reset, built with `Config.build` (10_state.md R40; log entry 1 for the build). -/
def State.reset : State := State.fresh Config.build

end Sys2Proof.Machine
end

