-- ==== Sys2Proof/Machine/Flags.lean ====
section
/-! DEFINITION. Status computations. The block has no flag register (10_state.md R37): the status a command reports is
its `err` and `err_code`, and for the predicate commands the output `bit`. -/

namespace Sys2Proof.Machine

/-- `err_code` of a fault (60_exceptions.md R233 to R236). -/
def Cause.code : Cause → ErrCode
  | .illegalCommand => 1
  | .indexOutOfRange => 2
  | .unwrittenRead => 3

/-- The source's `isZero()`: the zero pattern is unique (42_value_decoder.md R152, 30_encoding.md R71). -/
def isZero (p : Bits) : Bool := p == 0

/-- The source's `isNaR()`/`isInfinite()` (42_value_decoder.md R153). -/
def isNaR (c : Config) (p : Bits) : Bool := p == c.NAR

end Sys2Proof.Machine
end

