-- ==== Sys2Proof/Machine/Ops.lean ====
section
/-! DEFINITION. The shared operations: reading and writing BF, completing a command, raising a fault, and the host's
moves. BF is reached through these alone. -/

namespace Sys2Proof.Machine

/-! BF as a list of bits (10_state.md R30, R31). -/

/-- Bit j of BF. A bit that BF does not have reads as unwritten; in a state that meets `Inv` only bits 0 to W - 1 are
ever asked for (log entry 22). -/
def bfBit (bf : List BfBit) (j : Nat) : BfBit := bf.getD j .unwritten

/-- The value of BF, if every bit is written (10_state.md R32: a read of all W bits). -/
def bfToNat : List BfBit → Option Bits
  | [] => some 0
  | .unwritten :: _ => none
  | .val b :: rest => (bfToNat rest).map fun n => bitVal b + 2 * n

/-- BF holding the w-bit value v, every bit written (`BF <- v`, 00_scope.md R20). -/
def bfOfNat : Nat → Bits → List BfBit
  | 0, _ => []
  | w + 1, v => .val (v % 2 == 1) :: bfOfNat w (v / 2)

/-- `BF[j] <- 0` for every j (40_bitfield_register.md R102). -/
def bfZero (w : Nat) : List BfBit := List.replicate w (.val false)

/-- `BF[i] <- b` (40_bitfield_register.md R104). -/
def bfSetBit (bf : List BfBit) (i : Nat) (b : Bool) : List BfBit := bf.set i (.val b)

/-- The logical shift toward the most significant bit; a moved bit carries its value or its unwritten mark and a filled
0 is written (40_bitfield_register.md R106). -/
def bfShiftLeft (w : Nat) (bf : List BfBit) (s : Nat) : List BfBit :=
  (List.range w).map fun j => if s ≤ j then bfBit bf (j - s) else .val false

/-- The logical shift toward the least significant bit, likewise (40_bitfield_register.md R107). -/
def bfShiftRight (w : Nat) (bf : List BfBit) (s : Nat) : List BfBit :=
  (List.range w).map fun j => if j + s < w then bfBit bf (j + s) else .val false

/-- How many of the bits j - 1, j - 2, ..., 0 continue a run of b, read one at a time until one differs; none if an
unwritten bit is read (the loop of 40_bitfield_register.md R108). -/
def bfRunBelow (bf : List BfBit) (b : Bool) : Nat → Option Nat
  | 0 => some 0
  | j + 1 =>
    match bfBit bf j with
    | .unwritten => none
    | .val v => if v = b then (bfRunBelow bf b j).map (· + 1) else some 0

/-- The length of the run of identical bits from bit i down, bit i included; none if an unwritten bit is read
(40_bitfield_register.md R108). -/
def bfRun (bf : List BfBit) (i : Nat) : Option Nat :=
  match bfBit bf i with
  | .unwritten => none
  | .val b => (bfRunBelow bf b i).map (· + 1)

/-! How a command ends. -/

/-- The command completes: `err` and `err_code` are 0 and the response has the outputs o (60_exceptions.md R231). -/
def State.complete (s : State) (o : Outputs) : State :=
  { s with resp := some { err := false, errCode := 0, out := o } }

/-- `raise Fault(reason)`, the one description of taking a fault (60_exceptions.md R232, R241): BF and its marks are
unchanged, the response has `err = 1`, the cause's code and no other output, and `(n, cmd, reason)` is appended to the
fault record. No control is transferred and nothing is saved; there is no return from a fault and the next command is
accepted as it comes (R242). -/
def State.raise (s : State) (c : Cause) : State :=
  { s with
    resp := some { err := true, errCode := c.code, out := {} }
    faults := s.faults ++ [{ n := s.seq, cmd := s.cmd, cause := c }] }

/-- The command with its BF write: `BF <- ...` in the same atomic transaction (20_memory.md R54). -/
def State.withBf (s : State) (bf : List BfBit) : State := { s with bf := bf }

/-- A command whose rule reads something that may be unwritten: it goes on with what it read, or raises
`Fault(UnwrittenRead)` (10_state.md R32). -/
def orUnwritten {α : Type} (read : Option α) (s : State) (go : α → State) : State :=
  match read with
  | some x => go x
  | none => s.raise .unwrittenRead

/-- The index check of `BF_GET`, `BF_SET` and `BF_RUN`, made before any bit is read (40_bitfield_register.md R101,
60_exceptions.md R238). -/
def checkIndex (i : Nat) (s : State) (go : State) : State :=
  if i < s.cfg.W then go else s.raise .indexOutOfRange

/-! The host's moves (70_reset_and_hazards.md R268). -/

/-- The host presents a command and its inputs on the ports; the sequence index advances by one (10_state.md R36). -/
def State.present (s : State) (cmd : CmdWord) (inp : Inputs) (rest : List HostMove) : State :=
  { s with cmd := cmd, inp := inp, seq := s.seq + 1, pending := rest }

/-- Block reset, between two commands (70_reset_and_hazards.md R260): every bit of BF becomes unwritten, the fault
record becomes empty, the outputs are UNSPECIFIED until the next command completes and the configuration stays. The
host's side (its ports, its index, its moves) is not the block's and stays (log entries 6 and 20). -/
def State.blockReset (s : State) (rest : List HostMove) : State :=
  { s with
    bf := List.replicate s.cfg.W .unwritten
    resp := none
    faults := []
    pending := rest }

/-- A word that selects no command raises `Fault(IllegalCommand)` before any operand is read (60_exceptions.md R233). -/
def State.rejectWord (s : State) : State := s.raise .illegalCommand

/-- The host's next move becomes: issue this word, with every operand input 0 (log entry 4). -/
def State.issueFirst (s : State) (cmd : CmdWord) : State :=
  { s with pending := .issue cmd {} :: s.pending }

end Sys2Proof.Machine
end

