-- ==== Sys2Proof/Machine/Operands.lean ====
section
/-! DEFINITION. The operand forms: the input ports (30_encoding.md R77, R78) and the RS and RD routing (R83). A port has
as many wires as R78 says, so what stands on it is the value's low bits (log entry 8). -/

namespace Sys2Proof.Machine

/-- Port `a`, W bits. -/
def portA (s : State) : Bits := bitsAt s.inp.a 0 s.cfg.W

/-- Port `b`, W bits. -/
def portB (s : State) : Bits := bitsAt s.inp.b 0 s.cfg.W

/-- Port `wd`, W bits. -/
def portWd (s : State) : Bits := bitsAt s.inp.wd 0 s.cfg.W

/-- Port `n`, MW bits. -/
def portN (s : State) : Bits := bitsAt s.inp.n 0 s.cfg.MW

/-- Port `u_frac`, FIW bits. -/
def portFrac (s : State) : Bits := bitsAt s.inp.uFrac 0 s.cfg.FIW

/-- `T = sext_SW(u_scale)` (30_encoding.md R77). -/
def portScale (s : State) : Int := sext s.cfg.SW (bitsAt s.inp.uScale 0 s.cfg.SW)

/-- Operand A: port `a`, or all of BF when RS = 1; none when a bit of BF is unwritten. Port `a` is not read when RS = 1
(30_encoding.md R83). -/
def operandA (rs : Bool) (s : State) : Option Bits :=
  if rs then bfToNat s.bf else some (portA s)

/-- The end of a command with the posit result r: `out.r <- r`, and `BF <- r` when RD = 1 (30_encoding.md R83). -/
def positResult (rd : Bool) (r : Bits) (s : State) : State :=
  (if rd then s.withBf (bfOfNat s.cfg.W r) else s).complete { r := some r }

end Sys2Proof.Machine
end

