-- ==== Sys2Proof/Machine/Regime.lean ====
section
/-! DEFINITION. The regime unit (41_regime_decoder.md R130 to R135). -/

namespace Sys2Proof.Machine

/-- How many of the bits n - 1, n - 2, ..., 0 of f equal b before the first that does not. -/
def runLength (f : Nat) (b : Bool) : Nat → Nat
  | 0 => 0
  | n + 1 => if f.testBit n = b then runLength f b n + 1 else 0

/-- `regime(f)` of the (W-1)-bit field f: k and the run length m (R130). -/
def regime (w : Nat) (f : Bits) : Int × Nat :=
  let r0 := f.testBit (w - 2)
  let m := runLength f r0 (w - 1)
  (if r0 then (m : Int) - 1 else -(m : Int), m)

/-- Bits consumed, `c = min(m + 1, W - 1)` (R131). -/
def consumed (w m : Nat) : Nat := min (m + 1) (w - 1)

/-- `P_REGIME` (R133): only `A[W-2:0]` is used and no two's complement is applied. -/
def execPRegime (rs : Bool) (s : State) : Host.Outcome State Fault Refusal :=
  .next <| orUnwritten (operandA rs s) s fun a =>
    let km := regime s.cfg.W (bitsAt a 0 (s.cfg.W - 1))
    s.complete { k := some (signedBits s.cfg.KW km.1), cnt := some (consumed s.cfg.W km.2) }

end Sys2Proof.Machine
end

