-- ==== Sys2Proof/Machine/Decoder.lean ====
section
/-! DEFINITION. The value decoder (42_value_decoder.md R140 to R154) and the value a pattern denotes (R148). -/

namespace Sys2Proof.Machine

/-- The components of a pattern that is neither zero nor NaR (R140, R142 to R146). -/
structure RealParts where
  /-- Sign bit: true is negative (R142). -/
  s : Bool
  /-- Regime value (R143). -/
  k : Int
  /-- Regime bits consumed (R143). -/
  c : Nat
  /-- Exponent bits present (R144). -/
  nE : Nat
  /-- Exponent (R144). -/
  e : Nat
  /-- Fraction bits present (R145). -/
  nf : Nat
  /-- Fraction field (R145). -/
  f : Nat
  /-- Scale (R146). -/
  T : Int
  deriving DecidableEq, Repr

/-- The three results of `decode` (R140). -/
inductive Decoded where
  | zero
  | nar
  | real (x : RealParts)
  deriving DecidableEq, Repr

/-- The magnitude field M: the W-1 non-sign bits, two's-complemented when the sign bit is set (R142). -/
def magnitude (c : Config) (p : Bits) : Bits :=
  if p.testBit (c.W - 1) then tc (c.W - 1) (bitsAt p 0 (c.W - 1)) else bitsAt p 0 (c.W - 1)

/-- The components read from a sign and a magnitude field (R143 to R146). The exponent bits present are the high bits of
e; the missing low bits are 0 (30_encoding.md R74). -/
def partsOf (c : Config) (s : Bool) (M : Bits) : RealParts :=
  let km := regime c.W M
  let cc := consumed c.W km.2
  let nE := min c.E (c.W - 1 - cc)
  let nf := c.W - 1 - cc - nE
  let e := bitsAt M nf nE * 2 ^ (c.E - nE)
  { s := s, k := km.1, c := cc, nE := nE, e := e, nf := nf, f := bitsAt M 0 nf, T := km.1 * 2 ^ c.E + e }

/-- `decode(p)` (R140, R141). -/
def positDecode (c : Config) (p : Bits) : Decoded :=
  if isZero p then .zero
  else if isNaR c p then .nar
  else .real (partsOf c (p.testBit (c.W - 1)) (magnitude c p))

/-- `(-1)^s` as a rational. -/
def signFactor (s : Bool) : ℚ := if s then -1 else 1

/-- The value of the components: `(-1)^s * 2^T * (1 + f / 2^nf)` (R148). -/
def RealParts.value (x : RealParts) : ℚ := signFactor x.s * 2 ^ x.T * (1 + x.f / 2 ^ x.nf)

/-- `value(p)`: an exact rational, or none for NaR (R148, 00_scope.md R21). -/
def value (c : Config) (p : Bits) : Option ℚ :=
  match positDecode c p with
  | .zero => some 0
  | .nar => none
  | .real x => some x.value

/-- The `dec_*` outputs of a decoded pattern (R151, R154). -/
def decPorts (c : Config) : Decoded → DecOut
  | .zero => { decZero := true }
  | .nar => { decNar := true }
  | .real x =>
    { decSign := x.s
      decK := signedBits c.KW x.k
      decNr := x.c
      decNe := x.nE
      decE := x.e
      decNf := x.nf
      decFrac := x.f * 2 ^ (c.FBW - x.nf)
      decScale := signedBits c.TW x.T }

/-- `P_DECODE` (R151). -/
def execPDecode (rs : Bool) (s : State) : Host.Outcome State Fault Refusal :=
  .next <| orUnwritten (operandA rs s) s fun a =>
    s.complete { dec := some (decPorts s.cfg (positDecode s.cfg a)) }

/-- `P_ISZERO` (R152). -/
def execPIsZero (rs : Bool) (s : State) : Host.Outcome State Fault Refusal :=
  .next <| orUnwritten (operandA rs s) s fun a => s.complete { bit := some (isZero a) }

/-- `P_ISNAR` (R153). -/
def execPIsNar (rs : Bool) (s : State) : Host.Outcome State Fault Refusal :=
  .next <| orUnwritten (operandA rs s) s fun a => s.complete { bit := some (isNaR s.cfg a) }

end Sys2Proof.Machine
end

