-- ==== Sys2Proof/Machine/Encoder.lean ====
section
/-! DEFINITION. The value encoder (43_value_encoder.md R160 to R170). -/

namespace Sys2Proof.Machine

/-- The input of `encode` (R160): the flags, the sign, the scale T, the L fraction bits `F_1 ... F_L` as an L-bit
number with `F_1` most significant, and the sticky bit. -/
structure EncInput where
  nar : Bool := false
  zero : Bool := false
  s : Bool
  T : Int
  L : Nat
  F : Nat
  sticky : Bool := false
  deriving DecidableEq, Repr

/-- `k = T div 2^E` (R162). -/
def encK (c : Config) (T : Int) : Int := T / 2 ^ c.E

/-- `e = T mod 2^E` (R162). -/
def encE (c : Config) (T : Int) : Nat := (T % 2 ^ c.E).toNat

/-- The length of the regime code R: k + 2 or -k + 1 bits (R164). -/
def regimeLen (k : Int) : Nat := if 0 ≤ k then k.toNat + 2 else (-k).toNat + 1

/-- The regime code R: k + 1 ones and a 0, or -k zeros and a 1 (R164). -/
def regimeCode (k : Int) : Nat := if 0 ≤ k then 2 * ones (k.toNat + 1) else 1

/-- The length of the bits of B before its unbounded zeros: regime, exponent and fraction (R164). -/
def stringLen (c : Config) (k : Int) (L : Nat) : Nat := regimeLen k + c.E + L

/-- The bit string B of R164, cut off W zeros after its last fraction bit, as one number whose most significant bit is
`B_1`; it has `stringLen + W` bits, and every later bit of B is 0. -/
def bitString (c : Config) (k : Int) (e L F : Nat) : Nat :=
  ((regimeCode k * 2 ^ c.E + e) * 2 ^ L + F) * 2 ^ c.W

/-- Step 5: the first W - 1 bits of B, rounded to nearest, ties to even, by the round bit `B_W` and the sticky of
everything after it (R165). The kept bits end `stringLen + 1` bits above the end of the string. -/
def roundString (c : Config) (k : Int) (e L F : Nat) (sticky : Bool) : Bits :=
  let b := bitString c k e L F
  let n := stringLen c k L
  let kept := b / 2 ^ (n + 1)
  let rb := b.testBit n
  let st := bitsAt b 0 n != 0 || sticky
  if rb && (st || kept.testBit 0) then kept + 1 else kept

/-- Steps 2 to 5: the magnitude field P, with the clamp of k at both ends (R163). The clamp to MINPOS is the spec's
decision D8 (log entry 12). -/
def encMagnitude (c : Config) (T : Int) (L F : Nat) (sticky : Bool) : Bits :=
  let k := encK c T
  if (c.KMAX : Int) < k then ones (c.W - 1)
  else if k < -(c.KMAX : Int) then 1
  else roundString c k (encE c T) L F sticky

/-- Step 6: the sign bit, and the two's complement of the field when it is set (R167). -/
def applySign (c : Config) (s : Bool) (P : Bits) : Bits :=
  if s then 2 ^ (c.W - 1) + tc (c.W - 1) P else P

/-- `encode(nar, zero, s, T, F, st_in)` (R160): the NaR flag wins over the zero flag (R161). -/
def positEncode (c : Config) (u : EncInput) : Bits :=
  if u.nar then c.NAR
  else if u.zero then 0
  else applySign c u.s (encMagnitude c u.T u.L u.F u.sticky)

/-- The bundle `u` on the ports (30_encoding.md R77, 43_value_encoder.md R160). -/
def encInput (s : State) : EncInput :=
  { nar := s.inp.uNar
    zero := s.inp.uZero
    s := s.inp.uSign
    T := portScale s
    L := s.cfg.FIW
    F := portFrac s
    sticky := s.inp.uSticky }

/-- `P_ENCODE` (R168). -/
def execPEncode (rd : Bool) (s : State) : Host.Outcome State Fault Refusal :=
  .next (positResult rd (positEncode s.cfg (encInput s)) s)

end Sys2Proof.Machine
end

