-- ==== Sys2Proof/Machine/Negator.lean ====
section
/-! DEFINITION. The negator (45_negator.md R190 to R192; 90_conflicts.md C1). -/

namespace Sys2Proof.Machine

/-- `neg(p)`: zero and NaR unchanged, else the sign bit inverted and the non-sign bits two's-complemented (R190). -/
def positNeg (c : Config) (p : Bits) : Bits :=
  if isZero p || isNaR c p then p
  else bitVal (!p.testBit (c.W - 1)) * 2 ^ (c.W - 1) + tc (c.W - 1) (bitsAt p 0 (c.W - 1))

/-- `P_NEG` (R192). -/
def execPNeg (rs rd : Bool) (s : State) : Host.Outcome State Fault Refusal :=
  .next <| orUnwritten (operandA rs s) s fun a => positResult rd (positNeg s.cfg a) s

end Sys2Proof.Machine
end

