-- ==== Sys2Proof/Machine/Normalizer.lean ====
section
/-! DEFINITION. The normalizer (44_normalizer.md R180 to R185). -/

namespace Sys2Proof.Machine

/-- `normalize(n, w) = {1, n[w-1:1]}` (R181): the fraction is left-aligned and its last bit is dropped (D24, log
entry 15). -/
def normalize (n w : Nat) : Bits := 2 ^ (w - 1) + bitsAt n 1 (w - 1)

/-- `denormalize(n, sh, w)` (R182): 0 from a shift of w - 1 on, else a logical right shift; the bits shifted out are
discarded. -/
def denormalize (n sh w : Nat) : Bits := if w - 1 ≤ sh then 0 else n / 2 ^ sh

/-- `P_NORM` (R183). -/
def execPNorm (s : State) : Host.Outcome State Fault Refusal :=
  .next (s.complete { rn := some (normalize (portN s) s.cfg.MW) })

/-- `P_DENORM sh` (R184): any MW-bit value is shifted, and the shift is not checked. -/
def execPDenorm (sh : Nat) (s : State) : Host.Outcome State Fault Refusal :=
  .next (s.complete { rn := some (denormalize (portN s) sh s.cfg.MW) })

end Sys2Proof.Machine
end

