-- ==== Sys2Proof/Machine/Adder.lean ====
section
/-! DEFINITION. The adder and subtractor (46_adder_subtractor.md R200 to R212). -/

namespace Sys2Proof.Machine

/-- An operand's sign, scale and MW-bit mantissa. -/
structure Aligned where
  s : Bool
  T : Int
  M : Nat
  deriving DecidableEq, Repr

/-- Step 3 (R203): the fraction left-aligned in an MW-bit fraction vector, then normalized. -/
def mantissa (c : Config) (x : RealParts) : Aligned :=
  { s := x.s, T := x.T, M := normalize (x.f * 2 ^ (c.MW - x.nf)) c.MW }

/-- Steps 6 and 7 (R206, R207): a nonzero sum S at scale TB, renormalized by its leading one and encoded. -/
def renormalize (c : Config) (sr : Bool) (TB : Int) (S : Nat) : Bits :=
  let q := leadingOne S
  positEncode c { s := sr, T := TB + q - (c.MW - 1 : Nat), L := q, F := bitsAt S 0 q }

/-- Steps 4 and 5 (R204, R205) for the operand `big` with the scale that is not smaller and the other, `small`: align,
combine, and renormalize what is not the exact zero. -/
def combine (c : Config) (big small : Aligned) : Bits :=
  let m := denormalize small.M (big.T - small.T).toNat c.MW
  if big.s = small.s then renormalize c big.s big.T (big.M + m)
  else if m < big.M then renormalize c big.s big.T (big.M - m)
  else if big.M < m then renormalize c small.s big.T (m - big.M)
  else 0

/-- Step 4's choice of operands (R204). -/
def addReal (c : Config) (a b : Aligned) : Bits :=
  if b.T ≤ a.T then combine c a b else combine c b a

/-- `add(a, b)` (R200, R201): NaR before zero, then the sum of two reals. -/
def positAdd (c : Config) (a b : Bits) : Bits :=
  match positDecode c a, positDecode c b with
  | .nar, _ => c.NAR
  | _, .nar => c.NAR
  | .zero, _ => b
  | _, .zero => a
  | .real x, .real y => addReal c (mantissa c x) (mantissa c y)

/-- `P_ADD` (R211). -/
def execPAdd (rs rd : Bool) (s : State) : Host.Outcome State Fault Refusal :=
  .next <| orUnwritten (operandA rs s) s fun a => positResult rd (positAdd s.cfg a (portB s)) s

/-- `P_SUB` (R212): `add(A, neg(b))`. -/
def execPSub (rs rd : Bool) (s : State) : Host.Outcome State Fault Refusal :=
  .next <| orUnwritten (operandA rs s) s fun a =>
    positResult rd (positAdd s.cfg a (positNeg s.cfg (portB s))) s

end Sys2Proof.Machine
end

