-- ==== Sys2Proof/Machine/Bitfield.lean ====
section
/-! DEFINITION. The commands of `bitfield_register` (40_bitfield_register.md R100 to R111). -/

namespace Sys2Proof.Machine

/-- `BF_RESET` (R102): every bit becomes a written 0. It is a command, not a block reset (R261). -/
def execBfReset (s : State) : Host.Outcome State Fault Refusal :=
  .next ((s.withBf (bfZero s.cfg.W)).complete {})

/-- `BF_GET i` (R103). -/
def execBfGet (i : Nat) (s : State) : Host.Outcome State Fault Refusal :=
  .next <| checkIndex i s <|
    match bfBit s.bf i with
    | .unwritten => s.raise .unwrittenRead
    | .val b => s.complete { bit := some b }

/-- `BF_SET i, v` (R104): no bit is read. -/
def execBfSet (i : Nat) (v : Bool) (s : State) : Host.Outcome State Fault Refusal :=
  .next <| checkIndex i s <| (s.withBf (bfSetBit s.bf i v)).complete {}

/-- `BF_SHL s` (R106): the amount is not an index and is not checked. -/
def execBfShl (amount : Nat) (s : State) : Host.Outcome State Fault Refusal :=
  .next ((s.withBf (bfShiftLeft s.cfg.W s.bf amount)).complete {})

/-- `BF_SHR s` (R107). -/
def execBfShr (amount : Nat) (s : State) : Host.Outcome State Fault Refusal :=
  .next ((s.withBf (bfShiftRight s.cfg.W s.bf amount)).complete {})

/-- `BF_RUN i` (R108). -/
def execBfRun (i : Nat) (s : State) : Host.Outcome State Fault Refusal :=
  .next <| checkIndex i s <|
    orUnwritten (bfRun s.bf i) s fun n => s.complete { cnt := some n }

/-- `BF_LOAD` (R110): `BF <- wd`. -/
def execBfLoad (s : State) : Host.Outcome State Fault Refusal :=
  .next ((s.withBf (bfOfNat s.cfg.W (portWd s))).complete {})

/-- `BF_READ` (R111): all W bits are read. -/
def execBfRead (s : State) : Host.Outcome State Fault Refusal :=
  .next <| orUnwritten (bfToNat s.bf) s fun v => s.complete { r := some v }

end Sys2Proof.Machine
end

