-- ==== Sys2Proof/Machine/Dispatch.lean ====
section
/-! DEFINITION. One arm per command (30_encoding.md R84). -/

namespace Sys2Proof.Machine

def exec (i : Instr) (s : State) : Host.Outcome State Fault Refusal :=
  match i with
  | .bfReset => Sys2Proof.Machine.execBfReset s
  | .bfGet idx => Sys2Proof.Machine.execBfGet idx s
  | .bfSet idx v => Sys2Proof.Machine.execBfSet idx v s
  | .bfShl amount => Sys2Proof.Machine.execBfShl amount s
  | .bfShr amount => Sys2Proof.Machine.execBfShr amount s
  | .bfRun idx => Sys2Proof.Machine.execBfRun idx s
  | .bfLoad => Sys2Proof.Machine.execBfLoad s
  | .bfRead => Sys2Proof.Machine.execBfRead s
  | .pRegime rs => Sys2Proof.Machine.execPRegime rs s
  | .pDecode rs => Sys2Proof.Machine.execPDecode rs s
  | .pIsZero rs => Sys2Proof.Machine.execPIsZero rs s
  | .pIsNar rs => Sys2Proof.Machine.execPIsNar rs s
  | .pEncode rd => Sys2Proof.Machine.execPEncode rd s
  | .pNorm => Sys2Proof.Machine.execPNorm s
  | .pDenorm shift => Sys2Proof.Machine.execPDenorm shift s
  | .pNeg rs rd => Sys2Proof.Machine.execPNeg rs rd s
  | .pAdd rs rd => Sys2Proof.Machine.execPAdd rs rd s
  | .pSub rs rd => Sys2Proof.Machine.execPSub rs rd s

end Sys2Proof.Machine
end

