-- ==== Sys2Proof/Machine/Step.lean ====
section
/-! DEFINITION. One step: the host's next move (70_reset_and_hazards.md R268), atomic and in issue order (20_memory.md
R54, R56). -/

namespace Sys2Proof.Machine

/-- One step of the block. A configuration outside R264 is refused by name before anything runs; with no move waiting
the block has no step. An issued word is decoded (30_encoding.md R87): a command is performed, any other word raises
`Fault(IllegalCommand)`. -/
def step (s : State) : Host.Outcome State Fault Refusal :=
  if s.cfg.Legal then
    match s.pending with
    | [] => .fault .noCommand
    | .reset :: rest => .next (s.blockReset rest)
    | .issue cmd inp :: rest =>
      match decode cmd with
      | .ok i => exec i (s.present cmd inp rest)
      | .error _ => .next (s.present cmd inp rest).rejectWord
  else .refused .illegalConfiguration

/-- The state s with a command word as the host's very next move. The bits above the table's are 0 already, and the word
is 32 bits in parallel. A program is loaded from outside the block: the host issues it (log entry 4). -/
def State.withFetchWord (s : State) (_nbits w : Nat) : State := s.issueFirst (BitVec.ofNat 32 w)

end Sys2Proof.Machine
end

