-- ==== Sys2Proof/Machine/Instances.lean ====
section
/-! DEFINITION. Several instances of the block (60_exceptions.md R243, 20_memory.md R58): each has its own state and its
own configuration, and they share nothing. Which instance steps is not the machine's to say, so it is an argument (log
entry 18). -/

namespace Sys2Proof.Machine

/-- A system of independent blocks. -/
abbrev System := List State

/-- Instance j makes one step. None when there is no instance j or it has no step. -/
def System.stepAt (sys : System) (j : Nat) : Option System :=
  match sys[j]? with
  | none => none
  | some s =>
    match step s with
    | .next t => some (sys.set j t)
    | .fault _ => none
    | .refused _ => none

end Sys2Proof.Machine
end

