-- ==== Sys2Proof/Safety.lean ====
section
/-! DEFINITION. What counts as a safe run, and the terms the statements use: BF holding a value, an operand being
readable, the ports a command uses, the launch premises and the invariant of every step. -/

namespace Sys2Proof.Machine

/-! Launch premises and the final observation (70_reset_and_hazards.md R263, R269). -/

/-- The launch premise `loaded(v)`: every bit of BF is written with the W-bit value v and the fault record is empty
(R263). -/
def State.loaded (c : Config) (v : Bits) : State := { State.fresh c with bf := bfOfNat c.W v }

/-- The fault record is empty: the premise of every claim about a command sequence (10_state.md R41,
60_exceptions.md R232). -/
abbrev State.Clean (s : State) : Prop := s.faults = []

/-- The final observation of a run: BF with its marks, the fault record and the last response (R269). There is no
response where no command has completed since the last block reset (log entry 25). -/
def State.observation (s : State) : List BfBit × List FaultEntry × Option Response := (s.bf, s.faults, s.resp)

/-! BF and the operands, bit by bit. -/

/-- BF has w bits, every one written, and they are the bits of v. -/
abbrev HoldsValue (bf : List BfBit) (w : Nat) (v : Bits) : Prop :=
  bf.length = w ∧ ∀ j < w, bfBit bf j = .val (v.testBit j)

/-- Operand A is the W-bit pattern A: what BF holds when RS = 1, else what stands on the W wires of port `a`
(30_encoding.md R83). -/
abbrev OperandIs (rs : Bool) (s : State) (A : Bits) : Prop :=
  A < 2 ^ s.cfg.W ∧ if rs then HoldsValue s.bf s.cfg.W A else A = s.inp.a % 2 ^ s.cfg.W

/-- The inputs with the ports a command does not use set to 0 (the column "used by" of 30_encoding.md R78; port `a` is
not read when RS = 1, R83). -/
def usedInputs : Instr → Inputs → Inputs
  | .bfReset, _ => {}
  | .bfGet _, _ => {}
  | .bfSet _ _, _ => {}
  | .bfShl _, _ => {}
  | .bfShr _, _ => {}
  | .bfRun _, _ => {}
  | .bfLoad, p => { wd := p.wd }
  | .bfRead, _ => {}
  | .pRegime rs, p => { a := if rs then 0 else p.a }
  | .pDecode rs, p => { a := if rs then 0 else p.a }
  | .pIsZero rs, p => { a := if rs then 0 else p.a }
  | .pIsNar rs, p => { a := if rs then 0 else p.a }
  | .pEncode _, p =>
    { uNar := p.uNar, uZero := p.uZero, uSign := p.uSign, uScale := p.uScale, uFrac := p.uFrac, uSticky := p.uSticky }
  | .pNorm, p => { n := p.n }
  | .pDenorm _, p => { n := p.n }
  | .pNeg rs _, p => { a := if rs then 0 else p.a }
  | .pAdd rs _, p => { a := if rs then 0 else p.a, b := p.b }
  | .pSub rs _, p => { a := if rs then 0 else p.a, b := p.b }

/-- The commands that may read a bit of BF (10_state.md R33). -/
def readsBf : Instr → Bool
  | .bfReset => false
  | .bfGet _ => true
  | .bfSet _ _ => false
  | .bfShl _ => false
  | .bfShr _ => false
  | .bfRun _ => true
  | .bfLoad => false
  | .bfRead => true
  | .pRegime rs => rs
  | .pDecode rs => rs
  | .pIsZero rs => rs
  | .pIsNar rs => rs
  | .pEncode _ => false
  | .pNorm => false
  | .pDenorm _ => false
  | .pNeg rs _ => rs
  | .pAdd rs _ => rs
  | .pSub rs _ => rs

/-- The commands that may write BF (10_state.md R33). -/
def writesBf : Instr → Bool
  | .bfReset => true
  | .bfGet _ => false
  | .bfSet _ _ => true
  | .bfShl _ => true
  | .bfShr _ => true
  | .bfRun _ => false
  | .bfLoad => true
  | .bfRead => false
  | .pRegime _ => false
  | .pDecode _ => false
  | .pIsZero _ => false
  | .pIsNar _ => false
  | .pEncode rd => rd
  | .pNorm => false
  | .pDenorm _ => false
  | .pNeg _ rd => rd
  | .pAdd _ rd => rd
  | .pSub _ rd => rd

/-- The index a command checks against W (40_bitfield_register.md R101). -/
def checkedIndex : Instr → Option Nat
  | .bfGet i => some i
  | .bfSet i _ => some i
  | .bfRun i => some i
  | .bfReset => none
  | .bfShl _ => none
  | .bfShr _ => none
  | .bfLoad => none
  | .bfRead => none
  | .pRegime _ => none
  | .pDecode _ => none
  | .pIsZero _ => none
  | .pIsNar _ => none
  | .pEncode _ => none
  | .pNorm => none
  | .pDenorm _ => none
  | .pNeg _ _ => none
  | .pAdd _ _ => none
  | .pSub _ _ => none

/-! Runs (70_reset_and_hazards.md R263, R269). -/

/-- s is a launch premise, whatever moves the host has still to make: BF is all unwritten (`fresh`) or holds a W-bit
value (`loaded(v)`), and the fault record is empty (R263). -/
abbrev State.Launch (s : State) : Prop :=
  s.Clean ∧ s.bf.length = s.cfg.W ∧
    ((∀ j < s.cfg.W, bfBit s.bf j = .unwritten) ∨ ∃ v < 2 ^ s.cfg.W, HoldsValue s.bf s.cfg.W v)

/-- n host moves from s to t, none of which leaves an entry on the fault record.
DESIGN CHOICE (log entry 25, unsafe): R269 ends a run at its last command's response and does not say what a run is whose
last move is a block reset, or that has no command. Both are runs here; after a last reset, and from `fresh` with no
command, the observation holds no response. -/
def CleanRun : Nat → State → State → Prop
  | 0, s, t => t = s ∧ s.Clean
  | n + 1, s, t => s.Clean ∧ ∃ u, step s = .next u ∧ CleanRun n u t

/-- A successful run of n host moves from s to t: it starts from a launch premise, every step has a next state and no
command faults (R263, R269, 60_exceptions.md R232).
DESIGN CHOICE (log entry 24, safe): where a command faults and a later block reset empties the record, R269 judges by
the final record and R232 by the fault. Here the fault counts: the record is empty after every move, and such a run is
not successful. -/
def SuccessfulRun (n : Nat) (s t : State) : Prop := s.Launch ∧ CleanRun n s t

/-! The invariant. -/

/-- A driven port's value fits its width (00_scope.md R18). -/
abbrev FitsPort (width : Nat) (v : Option Bits) : Prop := ∀ x ∈ v, x < 2 ^ width

/-- The `dec_*` outputs fit their ports (30_encoding.md R78). -/
abbrev DecOut.Fits (c : Config) (d : DecOut) : Prop :=
  d.decK < 2 ^ c.KW ∧ d.decNr < 2 ^ c.CW ∧ d.decNe < 2 ^ c.CW ∧ d.decE < 2 ^ c.EW ∧ d.decNf < 2 ^ c.CW ∧
    d.decFrac < 2 ^ c.FBW ∧ d.decScale < 2 ^ c.TW

/-- Every driven output fits its port (30_encoding.md R78). -/
abbrev Outputs.Fits (c : Config) (o : Outputs) : Prop :=
  FitsPort c.W o.r ∧ FitsPort c.CW o.cnt ∧ FitsPort c.KW o.k ∧ FitsPort c.MW o.rn ∧ ∀ d ∈ o.dec, d.Fits c

/-- A fault-record entry's reason is one its command word can raise (60_exceptions.md R233 to R235). -/
def FaultEntry.explained (c : Config) (e : FaultEntry) : Bool :=
  match decode e.cmd, e.cause with
  | .error _, .illegalCommand => true
  | .ok i, .indexOutOfRange => (checkedIndex i).any fun j => decide (c.W ≤ j)
  | .ok i, .unwrittenRead => readsBf i && (checkedIndex i).all fun j => decide (j < c.W)
  | _, _ => false

/-- The fault record: its entries are in the order of the host's index, none later than the command on the ports, and
each is explained by its command word (10_state.md R41, 60_exceptions.md R232). -/
abbrev State.FaultsOk (s : State) : Prop :=
  s.faults.Pairwise (fun x y => x.n < y.n) ∧
    ∀ e ∈ s.faults, 1 ≤ e.n ∧ e.n ≤ s.seq ∧ e.explained s.cfg = true

/-- A response and the state that holds it (60_exceptions.md R231, R232): a completed command has code 0, no entry of its
own on the record and outputs that fit their ports; a faulted one has its entry last on the record, with that entry's
code, and no other output. -/
abbrev Response.Agrees (r : Response) (s : State) : Prop :=
  (r.err = true → ∃ e ∈ s.faults.getLast?, e.n = s.seq ∧ e.cmd = s.cmd ∧ r.errCode = e.cause.code ∧ r.out = {}) ∧
    (r.err = false → r.errCode = 0 ∧ r.out.Fits s.cfg ∧ ∀ e ∈ s.faults, e.n < s.seq)

/-- The last response agrees with the record; before the first command nothing is on record (10_state.md R40). -/
abbrev State.ResponseOk (s : State) : Prop :=
  (s.resp = none → s.faults = []) ∧ ∀ r ∈ s.resp, r.Agrees s

/-- The invariant of every step: a legal configuration (R264), BF of exactly W bits (R30), and the record and the last
response in agreement. -/
abbrev State.Inv (s : State) : Prop :=
  s.cfg.Legal ∧ s.bf.length = s.cfg.W ∧ s.FaultsOk ∧ s.ResponseOk

end Sys2Proof.Machine
end

