-- ==== Sys2Proof/Certificates/Slice0/Obligations.lean ====
section
/-! DEFINITION. The statements about the model, one per definition. A docstring names the rule of spec/ it formalises. -/

open Sys2Proof Sys2Proof.Machine

/-! ## Command words -/

/-- 30_encoding.md R81, R84: words written out from the spec's field positions and its examples (R88, 95 §V3, §V4), one
or more per unit. -/
def Obligations.SampleWordsDecode : Prop :=
  decode 0x00000001#32 = .ok .bfReset ∧
  decode 0xFFFF0002#32 = .ok (.bfGet 65535) ∧
  decode 0x00030023#32 = .ok (.bfSet 3 true) ∧
  decode 0x00030004#32 = .ok (.bfShl 3) ∧
  decode 0x00000049#32 = .ok (.pRegime true) ∧
  decode 0x0000004A#32 = .ok (.pDecode true) ∧
  decode 0x0000008D#32 = .ok (.pEncode true) ∧
  decode 0x0003000F#32 = .ok (.pDenorm 3) ∧
  decode 0x00000090#32 = .ok (.pNeg false true) ∧
  decode 0x000000D1#32 = .ok (.pAdd true true) ∧
  decode 0x00000012#32 = .ok (.pSub false false)

/-- 30_encoding.md R85: a word selects the command of a row exactly when `(cmd & mask) == match`. -/
def Obligations.DecodeAgreesWithOpcodeTable : Prop :=
  ∀ w : CmdWord, ∀ row ∈ opcodeTable,
    w &&& row.mask = row.value ↔ ∃ i, decode w = .ok i ∧ i.mnemonic = row.mnemonic

/-- Every operand of every well-formed command survives encoding and decoding (30_encoding.md R81, R82, R84). -/
def Obligations.DecodeOfEncodeIsTheCommand : Prop :=
  ∀ i : Instr, i.WellFormed → decode (encode i) = .ok i

/-- The other direction: a word that decodes is the encoding of what it decodes to, which is well-formed, so no two
words carry one command (30_encoding.md R85, R86). -/
def Obligations.EncodeOfDecodeIsTheWord : Prop :=
  ∀ (w : CmdWord) (i : Instr), decode w = .ok i → i.WellFormed ∧ encode i = w

/-! ## The step -/

/-- A step performs the decoded command, atomically, on the state in which the host has presented it (30_encoding.md
R81, 20_memory.md R54, R56, 10_state.md R36). That the host's moves wait in `pending` is the model's choice (log entry 2). -/
def Obligations.StepRunsTheDecodedCommand : Prop :=
  ∀ (s : State) (w : CmdWord) (p : Inputs) (rest : List HostMove) (i : Instr),
    s.cfg.Legal → s.pending = .issue w p :: rest → decode w = .ok i →
      step s = exec i { s with cmd := w, inp := p, seq := s.seq + 1, pending := rest }

/-- 30_encoding.md R86, 60_exceptions.md R233: a word that matches no row raises IllegalCommand, code 1, and changes
nothing but the response and the fault record. The queue of host moves is the model's choice (log entry 2). -/
def Obligations.UnmatchedWordRaisesIllegalCommand : Prop :=
  ∀ (s : State) (w : CmdWord) (p : Inputs) (rest : List HostMove),
    s.cfg.Legal → s.pending = .issue w p :: rest → (∀ row ∈ opcodeTable, w &&& row.mask ≠ row.value) →
      step s = .next { s with
        cmd := w, inp := p, seq := s.seq + 1, pending := rest
        resp := some { err := true, errCode := 1, out := {} }
        faults := s.faults ++ [{ n := s.seq + 1, cmd := w, cause := .illegalCommand }] }

/-- 70_reset_and_hazards.md R264: a configuration outside the bounds is refused by name, whatever the host does. The
bounds are written out, so that the statement does not lean on the model's check. That the refusal comes at the first
step is the model's reading (log entry 17). -/
def Obligations.IllegalConfigurationIsRefused : Prop :=
  ∀ s : State,
    (s.cfg.W < 2 ∨ 65536 < s.cfg.W ∨ s.cfg.MW < max 1 (s.cfg.W - 3 - s.cfg.E) + 1 ∨ s.cfg.FIW < 1 ∨ s.cfg.SW < 2) →
      step s = .refused .illegalConfiguration

/-- 70_reset_and_hazards.md R260, the effect on the block's own state: every bit of BF becomes unwritten, the fault
record empty, the outputs undefined, the configuration stays. That the host's side stays is the model's choice (log
entries 6 and 20). -/
def Obligations.BlockResetMakesBfUnwritten : Prop :=
  ∀ (s : State) (rest : List HostMove), s.cfg.Legal → s.pending = .reset :: rest →
    ∃ t, step s = .next t ∧ t.cfg = s.cfg ∧ t.bf.length = s.cfg.W ∧ (∀ j < s.cfg.W, bfBit t.bf j = .unwritten) ∧
      t.faults = [] ∧ t.resp = none ∧ t.pending = rest ∧ t.seq = s.seq

/-- 10_state.md R40: after reset every bit of BF is unwritten, the fault record is empty, no output is defined and the
configuration is the build's. Which configuration `State.reset` is built with is the model's choice (log entry 1). -/
def Obligations.FreshStateIsTheResetTable : Prop :=
  State.reset = State.fresh Config.build ∧
  ∀ c : Config, (State.fresh c).cfg = c ∧ (State.fresh c).bf.length = c.W ∧
    (∀ j < c.W, bfBit (State.fresh c).bf j = .unwritten) ∧ (State.fresh c).faults = [] ∧ (State.fresh c).resp = none

/-- Both launch premises of 70_reset_and_hazards.md R263 meet the invariant, for every legal configuration, and the reset
state does. -/
def Obligations.LaunchPremisesMeetTheInvariant : Prop :=
  State.reset.Inv ∧
  ∀ c : Config, c.Legal → (State.fresh c).Inv ∧
    ∀ v < 2 ^ c.W, (State.loaded c v).Inv ∧ HoldsValue (State.loaded c v).bf c.W v

/-- Every step keeps the invariant: BF stays W bits, every driven output fits its port (30_encoding.md R78; it is here
that the encoder's result fits W bits and the regime, scale and counts fit theirs), and the fault record stays ordered,
explained by its command words, and in agreement with the last response (10_state.md R41, 60_exceptions.md R231 to
R235). -/
def Obligations.StepKeepsTheInvariant : Prop :=
  ∀ s t : State, s.Inv → step s = .next t → t.Inv

/-- What every step does around a command (10_state.md R36, R41, 00_scope.md R16): the configuration never changes, an
issued command advances the index by one and stands on the ports, and the fault record is kept and grows by at most the
entry of that command. -/
def Obligations.StepKeepsBooks : Prop :=
  ∀ s t : State, step s = .next t → t.cfg = s.cfg ∧
    ∀ w p rest, s.pending = .issue w p :: rest →
      t.seq = s.seq + 1 ∧ t.cmd = w ∧ t.inp = p ∧ t.pending = rest ∧
      (t.faults = s.faults ∨ ∃ cause, t.faults = s.faults ++ [{ n := s.seq + 1, cmd := w, cause := cause }])

/-! ## Faults -/

/-- 60_exceptions.md R231, R232, R237: every command answers. Either it completes with `err` and `err_code` 0 and adds
nothing to the fault record, or it faults: `err` is 1, the code is the cause's, no other output is driven, one entry is
appended and nothing else changes, BF and its marks included. -/
def Obligations.EveryCommandCompletesOrFaultsPrecisely : Prop :=
  ∀ (i : Instr) (s : State),
    (∃ bf o, exec i s = .next { s with bf := bf, resp := some { err := false, errCode := 0, out := o } }) ∨
    (∃ cause code, ((cause = .indexOutOfRange ∧ code = 2) ∨ (cause = .unwrittenRead ∧ code = 3)) ∧
      exec i s = .next { s with
        resp := some { err := true, errCode := code, out := {} }
        faults := s.faults ++ [{ n := s.seq, cmd := s.cmd, cause := cause }] })

/-- 60_exceptions.md R235, 40_bitfield_register.md R101: an index that is not below W raises IndexOutOfRange, code 2,
before anything is read, so also where the bit would be unwritten (R238). A shift amount is no index and never raises
it. -/
def Obligations.IndexOutOfRangeIsRaised : Prop :=
  ∀ (n : Nat) (v : Bool) (s : State),
    (s.cfg.W ≤ n → ∀ i ∈ [Instr.bfGet n, Instr.bfSet n v, Instr.bfRun n],
      exec i s = .next { s with
        resp := some { err := true, errCode := 2, out := {} }
        faults := s.faults ++ [{ n := s.seq, cmd := s.cmd, cause := .indexOutOfRange }] }) ∧
    ∀ i ∈ [Instr.bfShl n, Instr.bfShr n, Instr.pDenorm n],
      ∃ bf o, exec i s = .next { s with bf := bf, resp := some { err := false, errCode := 0, out := o } }

/-- 60_exceptions.md R234: the commands that raise UnwrittenRead, code 3, and when: BF_GET of an unwritten bit, BF_RUN
when an unwritten bit ends its run, BF_READ and every command with RS = 1 when any bit is unwritten. -/
def Obligations.UnwrittenReadIsRaised : Prop :=
  ∀ (s : State) (n j : Nat) (rd : Bool), s.bf.length = s.cfg.W → j ≤ n → n < s.cfg.W → bfBit s.bf j = .unwritten →
    (∀ i ∈ [Instr.bfGet j, Instr.bfRead, Instr.pRegime true, Instr.pDecode true, Instr.pIsZero true, Instr.pIsNar true,
        Instr.pNeg true rd, Instr.pAdd true rd, Instr.pSub true rd],
      exec i s = .next { s with
        resp := some { err := true, errCode := 3, out := {} }
        faults := s.faults ++ [{ n := s.seq, cmd := s.cmd, cause := .unwrittenRead }] }) ∧
    ((∃ b, ∀ l ≤ n, j < l → bfBit s.bf l = .val b) →
      exec (.bfRun n) s = .next { s with
        resp := some { err := true, errCode := 3, out := {} }
        faults := s.faults ++ [{ n := s.seq, cmd := s.cmd, cause := .unwrittenRead }] })

/-- 60_exceptions.md R230: a command of the posit units completes on every input unless it takes operand A from a BF
that has an unwritten bit. -/
def Obligations.PositCommandsNeverFaultOtherwise : Prop :=
  ∀ (s : State) (rs rd : Bool) (sh : Nat), (rs = true → ∀ j < s.bf.length, bfBit s.bf j ≠ .unwritten) →
    ∀ i ∈ [Instr.pRegime rs, Instr.pDecode rs, Instr.pIsZero rs, Instr.pIsNar rs, Instr.pEncode rd, Instr.pNorm,
        Instr.pDenorm sh, Instr.pNeg rs rd, Instr.pAdd rs rd, Instr.pSub rs rd],
      ∃ bf o, exec i s = .next { s with bf := bf, resp := some { err := false, errCode := 0, out := o } }

/-! ## bitfield_register -/

/-- 40_bitfield_register.md R102: BF_RESET writes 0 to every bit; no output is driven and nothing else changes. -/
def Obligations.BfResetWritesZeros : Prop :=
  ∀ s : State, ∃ bf, HoldsValue bf s.cfg.W 0 ∧
    exec .bfReset s = .next { s with bf := bf, resp := some { err := false, errCode := 0, out := {} } }

/-- 40_bitfield_register.md R103: BF_GET of a written bit answers it and changes nothing else. -/
def Obligations.BfGetAnswersTheBit : Prop :=
  ∀ (i : Nat) (s : State) (b : Bool), i < s.cfg.W → bfBit s.bf i = .val b →
    exec (.bfGet i) s = .next { s with resp := some { err := false, errCode := 0, out := { bit := some b } } }

/-- 40_bitfield_register.md R104: BF_SET writes bit i, and every other bit keeps its value or its mark. -/
def Obligations.BfSetWritesOneBit : Prop :=
  ∀ (i : Nat) (v : Bool) (s : State), i < s.cfg.W → s.bf.length = s.cfg.W →
    ∃ bf, exec (.bfSet i v) s = .next { s with bf := bf, resp := some { err := false, errCode := 0, out := {} } } ∧
      bf.length = s.cfg.W ∧ ∀ j < s.cfg.W, bfBit bf j = if j = i then .val v else bfBit s.bf j

/-- 40_bitfield_register.md R106: BF_SHL shifts toward the most significant bit by any amount; a moved bit carries its
value or its unwritten mark and a filled 0 is written. That the shift is logical is the spec's decision D11 (log entry
13). -/
def Obligations.BfShlMovesBitsUp : Prop :=
  ∀ (n : Nat) (s : State),
    ∃ bf, exec (.bfShl n) s = .next { s with bf := bf, resp := some { err := false, errCode := 0, out := {} } } ∧
      bf.length = s.cfg.W ∧ ∀ j < s.cfg.W, bfBit bf j = if n ≤ j then bfBit s.bf (j - n) else .val false

/-- 40_bitfield_register.md R107: BF_SHR shifts toward the least significant bit, filling with 0 (decision D11, log entry
13). -/
def Obligations.BfShrMovesBitsDown : Prop :=
  ∀ (n : Nat) (s : State),
    ∃ bf, exec (.bfShr n) s = .next { s with bf := bf, resp := some { err := false, errCode := 0, out := {} } } ∧
      bf.length = s.cfg.W ∧ ∀ j < s.cfg.W, bfBit bf j = if j + n ≤ s.cfg.W - 1 then bfBit s.bf (j + n) else .val false

/-- 40_bitfield_register.md R108: BF_RUN answers how many bits from bit i down are alike, bit i included; no bit below
the first that differs is read, so its mark does not matter. The direction is the spec's decision D12 (log entry 14). -/
def Obligations.BfRunCountsDownward : Prop :=
  ∀ (i n : Nat) (b : Bool) (s : State), i < s.cfg.W → 1 ≤ n → n ≤ i + 1 →
    (∀ j < n, bfBit s.bf (i - j) = .val b) → (n = i + 1 ∨ bfBit s.bf (i - n) = .val (!b)) →
      exec (.bfRun i) s = .next { s with resp := some { err := false, errCode := 0, out := { cnt := some n } } }

/-- 40_bitfield_register.md R110: BF_LOAD writes the W wires of port `wd` to BF. -/
def Obligations.BfLoadWritesThePort : Prop :=
  ∀ s : State, ∃ bf, HoldsValue bf s.cfg.W s.inp.wd ∧
    exec .bfLoad s = .next { s with bf := bf, resp := some { err := false, errCode := 0, out := {} } }

/-- 40_bitfield_register.md R111: BF_READ of a BF with no unwritten bit answers its value and changes nothing else. -/
def Obligations.BfReadAnswersTheValue : Prop :=
  ∀ (s : State) (v : Bits), v < 2 ^ s.cfg.W → HoldsValue s.bf s.cfg.W v →
    exec .bfRead s = .next { s with resp := some { err := false, errCode := 0, out := { r := some v } } }

/-- 10_state.md R33, 20_memory.md R55: a command that does not write BF leaves every bit and every mark of it. -/
def Obligations.ReadingCommandsLeaveBf : Prop :=
  ∀ (i : Instr) (s t : State), writesBf i = false → exec i s = .next t →
    t.bf = s.bf ∧ t.cfg = s.cfg ∧ t.inp = s.inp ∧ t.seq = s.seq ∧ t.pending = s.pending

/-- 20_memory.md R55: every command that completes, other than a shift by a nonzero amount and P_NEG, P_ADD and P_SUB
with RS = 1 and RD = 1, answers the same and leaves the same when repeated with the same inputs. -/
def Obligations.RepeatingACommandChangesNothing : Prop :=
  ∀ (i : Instr) (s t : State) (o : Outputs), s.bf.length = s.cfg.W →
    (∀ n, (i = .bfShl n ∨ i = .bfShr n) → n = 0) →
    i ≠ .pNeg true true → i ≠ .pAdd true true → i ≠ .pSub true true →
    exec i s = .next t → t.resp = some { err := false, errCode := 0, out := o } → exec i t = .next t

/-- 70_reset_and_hazards.md R262: what writes every bit of BF from any state, the reset state included. -/
def Obligations.InitialisingCommandsWriteEveryBit : Prop :=
  ∀ (s : State) (n : Nat), s.cfg.W ≤ n →
    ∀ i ∈ [Instr.bfReset, Instr.bfLoad, Instr.pEncode true, Instr.pNeg false true, Instr.pAdd false true,
        Instr.pSub false true, Instr.bfShl n, Instr.bfShr n],
      ∃ t, exec i s = .next t ∧ t.bf.length = s.cfg.W ∧ ∀ j < s.cfg.W, bfBit t.bf j ≠ .unwritten

/-- 10_state.md R31, R33: a written bit stays written under every command but the two shifts, which move the marks with
the bits (R106, R107; log entry 11). -/
def Obligations.WrittenBitsStayWritten : Prop :=
  ∀ (i : Instr) (s t : State) (j : Nat), s.bf.length = s.cfg.W → (∀ n, i ≠ .bfShl n ∧ i ≠ .bfShr n) →
    exec i s = .next t → bfBit s.bf j ≠ .unwritten → bfBit t.bf j ≠ .unwritten

/-- 10_state.md R39, 30_encoding.md R78, R83: no hidden state. What a command writes and answers depends on the
configuration, on BF and on the ports that command uses, and on nothing else: port `a` is not read when RS = 1. -/
def Obligations.CommandsSeeOnlyBfAndTheirPorts : Prop :=
  ∀ (i : Instr) (s s' t : State), s.cfg = s'.cfg → s.bf = s'.bf → usedInputs i s.inp = usedInputs i s'.inp →
    exec i s = .next t → ∃ t', exec i s' = .next t' ∧ t'.bf = t.bf ∧ t'.resp = t.resp

/-- 60_exceptions.md R243, 20_memory.md R58: instances share nothing. A step of one leaves every other as it was, and
steps of two different instances may be taken in either order. That several instances stand in a list is the model's
choice (log entry 18). -/
def Obligations.InstancesAreIndependent : Prop :=
  ∀ (sys : System) (i j : Nat), i ≠ j →
    (∀ sys', sys.stepAt i = some sys' → sys'.length = sys.length ∧ sys'[j]? = sys[j]?) ∧
    (sys.stepAt i).bind (fun x => System.stepAt x j) = (sys.stepAt j).bind (fun x => System.stepAt x i)

/-! ## The regime unit -/

/-- 41_regime_decoder.md R130, R131, R133: P_REGIME of a field whose run of its first bit has length m answers
k = m - 1 or -m, as a KW-bit signed value, and cnt = min(m + 1, W - 1). The sign bit of A plays no part. -/
def Obligations.PRegimeAnswersTheRun : Prop :=
  ∀ (rs : Bool) (s : State) (A m : Nat), s.cfg.Legal → OperandIs rs s A → 1 ≤ m → m ≤ s.cfg.W - 1 →
    (∀ j < m, A.testBit (s.cfg.W - 2 - j) = A.testBit (s.cfg.W - 2)) →
    (m = s.cfg.W - 1 ∨ A.testBit (s.cfg.W - 2 - m) ≠ A.testBit (s.cfg.W - 2)) →
      ∃ k, exec (.pRegime rs) s = .next { s with
          resp := some { err := false, errCode := 0, out := { k := some k, cnt := some (min (m + 1) (s.cfg.W - 1)) } } } ∧
        k < 2 ^ s.cfg.KW ∧ sext s.cfg.KW k = if A.testBit (s.cfg.W - 2) then (m : Int) - 1 else -(m : Int)

/-- 41_regime_decoder.md R132: the ranges of m, k and c, and where the extremes of k are taken. -/
def Obligations.RegimeRanges : Prop :=
  ∀ w f : Nat, 2 ≤ w → f < 2 ^ (w - 1) →
    let k := (regime w f).1
    let m := (regime w f).2
    let c := consumed w m
    1 ≤ m ∧ m ≤ w - 1 ∧ -((w : Int) - 1) ≤ k ∧ k ≤ (w : Int) - 2 ∧ 1 ≤ c ∧ c ≤ w - 1 ∧ (3 ≤ w → 2 ≤ c) ∧
      (k = -((w : Int) - 1) ↔ f = 0) ∧ (k = (w : Int) - 2 ↔ f = 2 ^ (w - 1) - 1)

/-- 40_bitfield_register.md R109: the run length the regime unit finds in `a[W-2:0]` is what BF_RUN W-2 answers after
BF_LOAD of the same pattern. -/
def Obligations.RegimeRunIsBfRunAfterLoad : Prop :=
  ∀ (s : State) (A : Bits), s.cfg.Legal → s.inp.wd = A → A < 2 ^ s.cfg.W →
    ∃ t u, exec .bfLoad s = .next t ∧ exec (.bfRun (s.cfg.W - 2)) t = .next u ∧
      u.resp = some { err := false, errCode := 0, out := { cnt := some (regime s.cfg.W (A % 2 ^ (s.cfg.W - 1))).2 } }

/-! ## The value decoder -/

/-- 42_value_decoder.md R141 to R146: which patterns are Zero and NaR, and how every other pattern splits into sign,
regime, exponent, fraction and scale. Three of its clauses are inferences the spec marks as its own: that the exponent
bits present are the high bits of e (R144, from R164 and R150, decision D9), that M is not 0 (R142, from R141), and that
the fraction has at most FB_MAX bits (30_encoding.md R72, from R131). -/
def Obligations.DecodeSplitsThePattern : Prop :=
  ∀ (c : Config) (p : Bits), c.Legal → p < 2 ^ c.W →
    (positDecode c p = .zero ↔ p = 0) ∧ (positDecode c p = .nar ↔ p = 2 ^ (c.W - 1)) ∧
    (p ≠ 0 → p ≠ 2 ^ (c.W - 1) → ∃ x, positDecode c p = .real x ∧
      x.s = decide (2 ^ (c.W - 1) ≤ p) ∧
      ∃ M m, M = (if 2 ^ (c.W - 1) ≤ p then 2 ^ c.W - p else p) ∧ 0 < M ∧ M < 2 ^ (c.W - 1) ∧
        (x.k, m) = regime c.W M ∧ x.c = min (m + 1) (c.W - 1) ∧
        x.nE = min c.E (c.W - 1 - x.c) ∧ x.nf = c.W - 1 - x.c - x.nE ∧
        x.e = M / 2 ^ x.nf % 2 ^ x.nE * 2 ^ (c.E - x.nE) ∧ x.e < 2 ^ c.E ∧
        x.f = M % 2 ^ x.nf ∧ x.nf ≤ c.FB_MAX ∧ x.T = x.k * 2 ^ c.E + x.e)

/-- 42_value_decoder.md R154, R151: for Zero and NaR, P_DECODE drives the one flag to 1 and every other `dec_*` output to
0. -/
def Obligations.PDecodeFlagsZeroAndNaR : Prop :=
  ∀ (rs : Bool) (s : State), s.cfg.Legal →
    (OperandIs rs s 0 → exec (.pDecode rs) s = .next { s with
      resp := some { err := false, errCode := 0, out := { dec := some { decZero := true } } } }) ∧
    (OperandIs rs s (2 ^ (s.cfg.W - 1)) → exec (.pDecode rs) s = .next { s with
      resp := some { err := false, errCode := 0, out := { dec := some { decNar := true } } } })

/-- 42_value_decoder.md R151: for every other pattern P_DECODE drives the components of `decode(A)` on their ports, k and
scale as signed fields that hold them and the fraction left-aligned, and changes nothing else. -/
def Obligations.PDecodeDrivesTheComponents : Prop :=
  ∀ (rs : Bool) (s : State) (A : Bits) (x : RealParts), s.cfg.Legal → OperandIs rs s A →
    positDecode s.cfg A = .real x →
      ∃ d : DecOut, exec (.pDecode rs) s = .next { s with
          resp := some { err := false, errCode := 0, out := { dec := some d } } } ∧
        d.decZero = false ∧ d.decNar = false ∧ d.decSign = x.s ∧
        d.decK < 2 ^ s.cfg.KW ∧ sext s.cfg.KW d.decK = x.k ∧
        d.decNr = x.c ∧ d.decNe = x.nE ∧ d.decE = x.e ∧ d.decNf = x.nf ∧
        d.decFrac = x.f * 2 ^ (s.cfg.FBW - x.nf) ∧ d.decFrac < 2 ^ s.cfg.FBW ∧
        d.decScale < 2 ^ s.cfg.TW ∧ sext s.cfg.TW d.decScale = x.T

/-- 30_encoding.md R79: the decoded value is carried exactly by `dec_sign`, `dec_scale` and `dec_frac`, for every pattern
that is neither zero nor NaR. -/
def Obligations.PDecodePortsCarryTheValue : Prop :=
  ∀ (rs : Bool) (s t : State) (A : Bits), s.cfg.Legal → OperandIs rs s A → A ≠ 0 → A ≠ 2 ^ (s.cfg.W - 1) →
    exec (.pDecode rs) s = .next t →
      ∃ d : DecOut, t.resp = some { err := false, errCode := 0, out := { dec := some d } } ∧
        value s.cfg A = some ((if d.decSign then (-1 : ℚ) else 1) * (2 : ℚ) ^ sext s.cfg.TW d.decScale *
          (1 + (d.decFrac : ℚ) / 2 ^ s.cfg.FBW))

/-- 42_value_decoder.md R152, R153: P_ISZERO and P_ISNAR answer whether A is the one zero pattern and the one NaR
pattern. -/
def Obligations.PredicatesTestTheOnePattern : Prop :=
  ∀ (rs : Bool) (s : State) (A : Bits), OperandIs rs s A →
    exec (.pIsZero rs) s = .next { s with
      resp := some { err := false, errCode := 0, out := { bit := some (decide (A = 0)) } } } ∧
    exec (.pIsNar rs) s = .next { s with
      resp := some { err := false, errCode := 0, out := { bit := some (decide (A = 2 ^ (s.cfg.W - 1))) } } }

/-- 42_value_decoder.md R147: every scale is in -SMAX .. SMAX, and the bounds are reached by maxpos, minpos and their
negations alone. -/
def Obligations.ScaleRange : Prop :=
  ∀ (c : Config) (p : Bits) (x : RealParts), c.Legal → p < 2 ^ c.W → positDecode c p = .real x →
    -(c.SMAX : Int) ≤ x.T ∧ x.T ≤ c.SMAX ∧
    (x.T = c.SMAX ↔ p = 2 ^ (c.W - 1) - 1 ∨ p = 2 ^ (c.W - 1) + 1) ∧
    (x.T = -(c.SMAX : Int) ↔ p = 1 ∨ p = 2 ^ c.W - 1)

/-- 42_value_decoder.md R149: a pattern and its negation decode to the same components but for the sign, so their values
are opposite. -/
def Obligations.DecodeIsSignSymmetric : Prop :=
  ∀ (c : Config) (p : Bits) (x : RealParts), c.Legal → p < 2 ^ c.W → positDecode c p = .real x →
    positDecode c (positNeg c p) = .real { x with s := !x.s } ∧
      ∃ v, value c p = some v ∧ value c (positNeg c p) = some (-v)

/-- 42_value_decoder.md R150: the round trip, `encode(decode(p)) == p` for every pattern of every legal configuration. -/
def Obligations.EncodeOfDecodeIsThePattern : Prop :=
  ∀ (c : Config) (p : Bits), c.Legal → p < 2 ^ c.W →
    match positDecode c p with
    | .zero => ∀ s T L F st, positEncode c { zero := true, s := s, T := T, L := L, F := F, sticky := st } = p
    | .nar => ∀ z s T L F st, positEncode c { nar := true, zero := z, s := s, T := T, L := L, F := F, sticky := st } = p
    | .real x => positEncode c { s := x.s, T := x.T, L := x.nf, F := x.f } = p

/-! ## The value encoder -/

/-- 43_value_encoder.md R168, 30_encoding.md R83: P_ENCODE completes on every input, answers `encode` of the bundle on
its ports, and with RD = 1 writes that result to BF. -/
def Obligations.PEncodeAnswersTheEncoding : Prop :=
  ∀ (rd : Bool) (s : State),
    let r := positEncode s.cfg
      { nar := s.inp.uNar, zero := s.inp.uZero, s := s.inp.uSign, T := sext s.cfg.SW (s.inp.uScale % 2 ^ s.cfg.SW)
        L := s.cfg.FIW, F := s.inp.uFrac % 2 ^ s.cfg.FIW, sticky := s.inp.uSticky }
    ∃ bf, exec (.pEncode rd) s = .next { s with bf := bf, resp := some { err := false, errCode := 0, out := { r := some r } } } ∧
      if rd then HoldsValue bf s.cfg.W r else bf = s.bf

/-- 43_value_encoder.md R161: the NaR flag wins, then the zero flag, whatever the other inputs are. -/
def Obligations.EncodeOfFlaggedInputs : Prop :=
  ∀ (c : Config) (u : EncInput), (u.nar = true → positEncode c u = 2 ^ (c.W - 1)) ∧
    (u.nar = false → u.zero = true → positEncode c u = 0)

/-- 43_value_encoder.md R163, R167: a scale whose k is above KMAX saturates to maxpos or its negation, and one whose k is
below -KMAX clamps to minpos or its negation, never to NaR or zero. The lower clamp is the spec's decision D8 (log entry
12). -/
def Obligations.EncodeSaturatesAtBothEnds : Prop :=
  ∀ (c : Config) (s : Bool) (T : Int) (L F : Nat) (st : Bool), c.Legal →
    let r := positEncode c { s := s, T := T, L := L, F := F, sticky := st }
    (((c.W : Int) - 2 < T / 2 ^ c.E) → r = if s then 2 ^ (c.W - 1) + 1 else 2 ^ (c.W - 1) - 1) ∧
    ((T / 2 ^ c.E < -((c.W : Int) - 2)) → r = if s then 2 ^ c.W - 1 else 1)

/-- 43_value_encoder.md R166, R167: an input that is neither NaR nor zero encodes to a W-bit pattern that is neither, with
the input's sign (for k below -KMAX by decision D8, log entry 12). -/
def Obligations.EncodeOfARealIsAReal : Prop :=
  ∀ (c : Config) (s : Bool) (T : Int) (L F : Nat) (st : Bool), c.Legal → F < 2 ^ L →
    let r := positEncode c { s := s, T := T, L := L, F := F, sticky := st }
    r < 2 ^ c.W ∧ r ≠ 0 ∧ r ≠ 2 ^ (c.W - 1) ∧ r.testBit (c.W - 1) = s

/-- 43_value_encoder.md R164, R165, R167: for k within the bounds, B is the regime code, the E exponent bits and the
fraction, followed by zeros; the magnitude field is its first W - 1 bits, rounded up when the discarded part is more than
half of a last place, or half and either the sticky is set or the kept field is odd. -/
def Obligations.EncodeRoundsToNearestEven : Prop :=
  ∀ (c : Config) (s : Bool) (k : Int) (e L F R n : Nat) (st : Bool), c.Legal → F < 2 ^ L → e < 2 ^ c.E →
    -((c.W : Int) - 2) ≤ k → k ≤ (c.W : Int) - 2 →
    (0 ≤ k → R = 2 ^ (k.toNat + 2) - 2 ∧ n = k.toNat + 2) → (k < 0 → R = 1 ∧ n = (-k).toNat + 1) →
    let B := ((R * 2 ^ c.E + e) * 2 ^ L + F) * 2 ^ c.W
    let drop := n + c.E + L + 1
    let kept := B / 2 ^ drop
    let cut := B % 2 ^ drop
    let half := 2 ^ (drop - 1)
    let P := if half < cut ∨ (cut = half ∧ (st = true ∨ kept % 2 = 1)) then kept + 1 else kept
    positEncode c { s := s, T := k * 2 ^ c.E + e, L := L, F := F, sticky := st } = if s then 2 ^ c.W - P else P

/-- 30_encoding.md R76: one real number has one pattern. Two inputs that stand for the same real (R77) encode alike,
however their fractions are written. -/
def Obligations.OneRealHasOnePattern : Prop :=
  ∀ (c : Config) (s : Bool) (T T' : Int) (L F L' F' : Nat), c.Legal → F < 2 ^ L → F' < 2 ^ L' →
    (2 : ℚ) ^ T * (1 + F / 2 ^ L) = 2 ^ T' * (1 + F' / 2 ^ L') →
      positEncode c { s := s, T := T, L := L, F := F } = positEncode c { s := s, T := T', L := L', F := F' }

/-- 43_value_encoder.md R170: with FIW at least FB_MAX + 1 and the sticky set, P_ENCODE rounds every real strictly between
two FIW-bit fractions as that real itself is rounded: whatever bits, not all zero, follow the FIW given ones. -/
def Obligations.StickyStandsForEveryTail : Prop :=
  ∀ (c : Config) (s : Bool) (T : Int) (L F n g : Nat) (st : Bool), c.Legal → c.FB_MAX + 1 ≤ L → F < 2 ^ L →
    0 < g → g < 2 ^ n →
      positEncode c { s := s, T := T, L := L, F := F, sticky := true } =
        positEncode c { s := s, T := T, L := L + n, F := F * 2 ^ n + g, sticky := st }

/-- 43_value_encoder.md R169, its first sentence: when the regime and the whole exponent fit in the kept bits, the result
is the pattern of the input's sign nearest to it in value, and of two equally near the one whose last bit is 0. -/
def Obligations.EncodeIsNearestWhenTheCutIsInTheFraction : Prop :=
  ∀ (c : Config) (s : Bool) (k : Int) (e L F : Nat), c.Legal → F < 2 ^ L → e < 2 ^ c.E →
    -((c.W : Int) - 2) ≤ k → k ≤ (c.W : Int) - 2 →
    (if 0 ≤ k then k.toNat + 2 else (-k).toNat + 1) + c.E ≤ c.W - 1 →
    let x : ℚ := (if s then -1 else 1) * 2 ^ (k * 2 ^ c.E + e) * (1 + F / 2 ^ L)
    let r := positEncode c { s := s, T := k * 2 ^ c.E + e, L := L, F := F }
    ∃ v, value c r = some v ∧
      ∀ p y, p < 2 ^ c.W → p ≠ 0 → p.testBit (c.W - 1) = s → value c p = some y →
        |v - x| ≤ |y - x| ∧ (|v - x| = |y - x| → p ≠ r → r % 2 = 0)

/-! ## The normalizer and the negator -/

/-- 44_normalizer.md R181, R183: P_NORM answers a 1 followed by the input's bits MW-1 to 1, and changes nothing else. That
the input is left-aligned is the spec's decision D24 (log entry 15). -/
def Obligations.PNormInstallsTheHiddenBit : Prop :=
  ∀ s : State, s.cfg.Legal →
    ∃ rn, exec .pNorm s = .next { s with resp := some { err := false, errCode := 0, out := { rn := some rn } } } ∧
      rn < 2 ^ s.cfg.MW ∧ rn.testBit (s.cfg.MW - 1) = true ∧
      ∀ j < s.cfg.MW - 1, rn.testBit j = s.inp.n.testBit (j + 1)

/-- 44_normalizer.md R182, R184: P_DENORM answers the input shifted right by IDX with zero fill, and 0 from a shift of
MW - 1 on; the shift is not checked. -/
def Obligations.PDenormShiftsRight : Prop :=
  ∀ (sh : Nat) (s : State),
    ∃ rn, exec (.pDenorm sh) s = .next { s with resp := some { err := false, errCode := 0, out := { rn := some rn } } } ∧
      (s.cfg.MW - 1 ≤ sh → rn = 0) ∧
      (sh < s.cfg.MW - 1 → ∀ j, rn.testBit j = (decide (j + sh < s.cfg.MW) && s.inp.n.testBit (j + sh)))

/-- 44_normalizer.md R185: denormalizing a normalized fraction puts the hidden bit at bit w-1-sh with the fraction bits
below it. -/
def Obligations.DenormOfNormPlacesTheHiddenBit : Prop :=
  ∀ n w sh : Nat, 2 ≤ w → sh ≤ w - 2 →
    let x := denormalize (normalize n w) sh w
    x < 2 ^ (w - sh) ∧ x.testBit (w - 1 - sh) = true ∧ ∀ j < w - 1 - sh, x.testBit j = n.testBit (j + 1 + sh)

/-- 45_negator.md R190, R192: P_NEG answers the W-bit two's complement of the whole pattern, zero and NaR included, and
with RD = 1 writes it to BF. -/
def Obligations.PNegAnswersTheTwosComplement : Prop :=
  ∀ (rs rd : Bool) (s : State) (A : Bits), s.cfg.Legal → OperandIs rs s A →
    ∃ bf, exec (.pNeg rs rd) s = .next { s with
        bf := bf
        resp := some { err := false, errCode := 0, out := { r := some ((2 ^ s.cfg.W - A) % 2 ^ s.cfg.W) } } } ∧
      if rd then HoldsValue bf s.cfg.W ((2 ^ s.cfg.W - A) % 2 ^ s.cfg.W) else bf = s.bf

/-- 45_negator.md R191: negation is an involution on every pattern, keeps NaR, and negates the value exactly. -/
def Obligations.NegationIsExact : Prop :=
  ∀ (c : Config) (p : Bits), c.Legal → p < 2 ^ c.W →
    positNeg c p < 2 ^ c.W ∧ positNeg c (positNeg c p) = p ∧ positNeg c c.NAR = c.NAR ∧
    ∀ v, value c p = some v → value c (positNeg c p) = some (-v)

/-! ## The adder and subtractor -/

/-- 46_adder_subtractor.md R211, R212, 30_encoding.md R83: P_ADD answers `add(A, b)` and P_SUB `add(A, neg(b))`; with
RD = 1 the result is also written to BF. -/
def Obligations.PAddAndPSubAnswerTheSum : Prop :=
  ∀ (rs rd : Bool) (s : State) (A : Bits), s.cfg.Legal → OperandIs rs s A →
    let b := s.inp.b % 2 ^ s.cfg.W
    (∃ bf, exec (.pAdd rs rd) s = .next { s with
        bf := bf, resp := some { err := false, errCode := 0, out := { r := some (positAdd s.cfg A b) } } } ∧
      if rd then HoldsValue bf s.cfg.W (positAdd s.cfg A b) else bf = s.bf) ∧
    (∃ bf, exec (.pSub rs rd) s = .next { s with
        bf := bf, resp := some { err := false, errCode := 0, out := { r := some (positAdd s.cfg A (positNeg s.cfg b)) } } } ∧
      if rd then HoldsValue bf s.cfg.W (positAdd s.cfg A (positNeg s.cfg b)) else bf = s.bf)

/-- 46_adder_subtractor.md R201: a NaR operand gives NaR, and a zero operand gives the other operand unchanged. -/
def Obligations.AddOfSpecialOperands : Prop :=
  ∀ (c : Config) (a b : Bits), c.Legal → a < 2 ^ c.W → b < 2 ^ c.W →
    (a = c.NAR ∨ b = c.NAR → positAdd c a b = c.NAR) ∧
    (a = 0 → b ≠ c.NAR → positAdd c a b = b) ∧ (b = 0 → a ≠ c.NAR → positAdd c a b = a)

/-- 46_adder_subtractor.md R203 to R207: the sum of two reals at any legal width MW, in plain arithmetic: mantissas with
their hidden bit, the smaller-scale one shifted right (0 from a shift of MW - 1 on), added or subtracted, and the leading
one of the result encoded at its scale. The operands are named so that the first has the scale that is not smaller. -/
def Obligations.AddAlignsCombinesAndEncodes : Prop :=
  ∀ (c : Config) (a b : Bits) (x y : RealParts) (MB MS d m : Nat), c.Legal → a < 2 ^ c.W → b < 2 ^ c.W →
    positDecode c a = .real x → positDecode c b = .real y → y.T ≤ x.T →
    MB = 2 ^ (c.MW - 1) + x.f * 2 ^ (c.MW - 1 - x.nf) → MS = 2 ^ (c.MW - 1) + y.f * 2 ^ (c.MW - 1 - y.nf) →
    d = (x.T - y.T).toNat → m = (if c.MW - 1 ≤ d then 0 else MS / 2 ^ d) →
    (x.s ≠ y.s → MB = m → positAdd c a b = 0 ∧ positAdd c b a = 0) ∧
    ∀ (S q : Nat) (sr : Bool), 2 ^ q ≤ S → S < 2 ^ (q + 1) →
      ((x.s = y.s ∧ S = MB + m ∧ sr = x.s) ∨ (x.s ≠ y.s ∧ m < MB ∧ S = MB - m ∧ sr = x.s) ∨
        (x.s ≠ y.s ∧ MB < m ∧ S = m - MB ∧ sr = y.s)) →
      let r := positEncode c { s := sr, T := x.T + q - ((c.MW : Int) - 1), L := q, F := S - 2 ^ q }
      positAdd c a b = r ∧ positAdd c b a = r

/-- 46_adder_subtractor.md R209: with MW at least MW_EXACT, `add` is `encode` of the exact real sum: the zero pattern when
the sum is 0, and otherwise the encoding of any input that stands for the sum (R77). -/
def Obligations.AddIsCorrectlyRounded : Prop :=
  ∀ (c : Config) (a b : Bits) (va vb : ℚ), c.Legal → c.MW_EXACT ≤ c.MW → a < 2 ^ c.W → b < 2 ^ c.W →
    value c a = some va → value c b = some vb →
    (va + vb = 0 → positAdd c a b = 0) ∧
    ∀ (s : Bool) (T : Int) (L F : Nat), F < 2 ^ L → va + vb = (if s then -1 else 1) * 2 ^ T * (1 + F / 2 ^ L) →
      positAdd c a b = positEncode c { s := s, T := T, L := L, F := F }

/-- 46_adder_subtractor.md R210, at every legal MW: commutativity, identity, NaR absorption and the exact additive
inverse. -/
def Obligations.AdditionLaws : Prop :=
  ∀ (c : Config) (a b : Bits), c.Legal → a < 2 ^ c.W → b < 2 ^ c.W →
    positAdd c a b = positAdd c b a ∧ positAdd c a 0 = a ∧ positAdd c 0 a = a ∧
    positAdd c c.NAR a = c.NAR ∧ positAdd c a c.NAR = c.NAR ∧
    (a ≠ c.NAR → positAdd c a (positNeg c a) = 0)

/-- 46_adder_subtractor.md R208, its last clause, and R212's corner cases, at every legal MW: a sum of two reals is the
zero pattern only when it is exactly 0, and subtraction is antisymmetric. -/
def Obligations.SubtractionLaws : Prop :=
  ∀ (c : Config) (a b : Bits), c.Legal → a < 2 ^ c.W → b < 2 ^ c.W →
    positAdd c a (positNeg c b) = positNeg c (positAdd c b (positNeg c a)) ∧
    positAdd c 0 (positNeg c b) = positNeg c b ∧
    (∀ va vb, value c a = some va → value c b = some vb → (positAdd c a b = 0 ↔ va + vb = 0))
end

