-- ==== Sys2Proof/Laws/Bits.lean ====
section
/-! SUPPORT. The primitives of 00_scope.md R17 to R19. -/

namespace Sys2Proof.Machine

theorem bitsAt_lt (v lo n : Nat) : bitsAt v lo n < 2 ^ n := Nat.mod_lt _ (by positivity)

theorem bitsAt_zero (v n : Nat) : bitsAt v 0 n = v % 2 ^ n := by simp [bitsAt]

theorem bitsAt_eq_self {v n : Nat} (h : v < 2 ^ n) : bitsAt v 0 n = v := by
  rw [bitsAt_zero, Nat.mod_eq_of_lt h]

theorem testBit_bitsAt (v lo n j : Nat) : (bitsAt v lo n).testBit j = (decide (j < n) && v.testBit (j + lo)) := by
  rw [bitsAt, Nat.testBit_mod_two_pow, Nat.testBit_div_two_pow]

theorem tc_lt (n v : Nat) : tc n v < 2 ^ n := Nat.mod_lt _ (by positivity)

/-- Away from 0 the two's complement is plain subtraction. -/
theorem tc_pos {n v : Nat} (h0 : 0 < v) : tc n v = 2 ^ n - v := Nat.mod_eq_of_lt (by have := Nat.two_pow_pos n; omega)

@[simp] theorem tc_zero (n : Nat) : tc n 0 = 0 := by simp [tc]

theorem tc_tc {n v : Nat} (h : v < 2 ^ n) : tc n (tc n v) = v := by
  rcases Nat.eq_zero_or_pos v with rfl | h0
  · simp
  · rw [tc_pos h0, tc_pos (by omega)]; omega

theorem le_two_pow_clog2 (x : Nat) : x ≤ 2 ^ clog2 x := by
  unfold clog2
  split
  · simpa
  · have := Nat.lt_log2_self (n := x - 1)
    omega

/-- A signed field holds every integer of its range (00_scope.md R18). -/
theorem sext_signedBits {n : Nat} {x : Int} (hn : 1 ≤ n) (lo : -2 ^ (n - 1) ≤ x) (hi : x < 2 ^ (n - 1)) :
    sext n (signedBits n x) = x := by
  obtain ⟨m, rfl⟩ : ∃ m, n = m + 1 := ⟨n - 1, by omega⟩
  have e : (2 : Int) ^ (m + 1) = 2 * 2 ^ m := by ring
  have en : (2 : Nat) ^ (m + 1) = 2 * 2 ^ m := by ring
  have hc : ((2 ^ m : Nat) : Int) = 2 ^ m := by push_cast; rfl
  simp only [Nat.add_sub_cancel] at lo hi
  unfold sext signedBits
  simp only [Nat.add_sub_cancel]
  rcases lt_or_ge x 0 with h | h
  · have hx : x % 2 ^ (m + 1) = x + 2 ^ (m + 1) := by
      rw [← Int.add_emod_right, Int.emod_eq_of_lt] <;> omega
    rw [hx, if_neg (by omega)]
    omega
  · have hx : x % 2 ^ (m + 1) = x := Int.emod_eq_of_lt h (by omega)
    rw [hx, if_pos (by omega)]
    omega

theorem signedBits_lt (n : Nat) (x : Int) : signedBits n x < 2 ^ n := by
  have h1 : (0 : Int) < 2 ^ n := by positivity
  have := Int.emod_lt_of_pos x h1
  have := Int.emod_nonneg x h1.ne'
  have hc : ((2 ^ n : Nat) : Int) = 2 ^ n := by push_cast; rfl
  unfold signedBits
  omega

theorem leadingOne_spec {v : Nat} (h : v ≠ 0) : 2 ^ leadingOne v ≤ v ∧ v < 2 ^ (leadingOne v + 1) :=
  ⟨Nat.log2_self_le h, Nat.lt_log2_self⟩

end Sys2Proof.Machine
end

