-- ==== Sys2Proof/Laws/State.lean ====
section
/-! SUPPORT. What every update of a state does to every field: true by definition, for the simplifier. -/

namespace Sys2Proof.Machine

@[simp] theorem State.complete_cfg (s : State) (o : Outputs) : (s.complete o).cfg = s.cfg := rfl
@[simp] theorem State.complete_bf (s : State) (o : Outputs) : (s.complete o).bf = s.bf := rfl
@[simp] theorem State.complete_cmd (s : State) (o : Outputs) : (s.complete o).cmd = s.cmd := rfl
@[simp] theorem State.complete_inp (s : State) (o : Outputs) : (s.complete o).inp = s.inp := rfl
@[simp] theorem State.complete_seq (s : State) (o : Outputs) : (s.complete o).seq = s.seq := rfl
@[simp] theorem State.complete_resp (s : State) (o : Outputs) : (s.complete o).resp = some { err := false, errCode := 0, out := o } := rfl
@[simp] theorem State.complete_faults (s : State) (o : Outputs) : (s.complete o).faults = s.faults := rfl
@[simp] theorem State.complete_pending (s : State) (o : Outputs) : (s.complete o).pending = s.pending := rfl

@[simp] theorem State.raise_cfg (s : State) (c : Cause) : (s.raise c).cfg = s.cfg := rfl
@[simp] theorem State.raise_bf (s : State) (c : Cause) : (s.raise c).bf = s.bf := rfl
@[simp] theorem State.raise_cmd (s : State) (c : Cause) : (s.raise c).cmd = s.cmd := rfl
@[simp] theorem State.raise_inp (s : State) (c : Cause) : (s.raise c).inp = s.inp := rfl
@[simp] theorem State.raise_seq (s : State) (c : Cause) : (s.raise c).seq = s.seq := rfl
@[simp] theorem State.raise_resp (s : State) (c : Cause) : (s.raise c).resp = some { err := true, errCode := c.code, out := {} } := rfl
@[simp] theorem State.raise_faults (s : State) (c : Cause) : (s.raise c).faults = s.faults ++ [{ n := s.seq, cmd := s.cmd, cause := c }] := rfl
@[simp] theorem State.raise_pending (s : State) (c : Cause) : (s.raise c).pending = s.pending := rfl

@[simp] theorem State.withBf_cfg (s : State) (l : List BfBit) : (s.withBf l).cfg = s.cfg := rfl
@[simp] theorem State.withBf_bf (s : State) (l : List BfBit) : (s.withBf l).bf = l := rfl
@[simp] theorem State.withBf_cmd (s : State) (l : List BfBit) : (s.withBf l).cmd = s.cmd := rfl
@[simp] theorem State.withBf_inp (s : State) (l : List BfBit) : (s.withBf l).inp = s.inp := rfl
@[simp] theorem State.withBf_seq (s : State) (l : List BfBit) : (s.withBf l).seq = s.seq := rfl
@[simp] theorem State.withBf_resp (s : State) (l : List BfBit) : (s.withBf l).resp = s.resp := rfl
@[simp] theorem State.withBf_faults (s : State) (l : List BfBit) : (s.withBf l).faults = s.faults := rfl
@[simp] theorem State.withBf_pending (s : State) (l : List BfBit) : (s.withBf l).pending = s.pending := rfl

@[simp] theorem State.present_cfg (s : State) (w : CmdWord) (p : Inputs) (rest : List HostMove) : (s.present w p rest).cfg = s.cfg := rfl
@[simp] theorem State.present_bf (s : State) (w : CmdWord) (p : Inputs) (rest : List HostMove) : (s.present w p rest).bf = s.bf := rfl
@[simp] theorem State.present_cmd (s : State) (w : CmdWord) (p : Inputs) (rest : List HostMove) : (s.present w p rest).cmd = w := rfl
@[simp] theorem State.present_inp (s : State) (w : CmdWord) (p : Inputs) (rest : List HostMove) : (s.present w p rest).inp = p := rfl
@[simp] theorem State.present_seq (s : State) (w : CmdWord) (p : Inputs) (rest : List HostMove) : (s.present w p rest).seq = s.seq + 1 := rfl
@[simp] theorem State.present_resp (s : State) (w : CmdWord) (p : Inputs) (rest : List HostMove) : (s.present w p rest).resp = s.resp := rfl
@[simp] theorem State.present_faults (s : State) (w : CmdWord) (p : Inputs) (rest : List HostMove) : (s.present w p rest).faults = s.faults := rfl
@[simp] theorem State.present_pending (s : State) (w : CmdWord) (p : Inputs) (rest : List HostMove) : (s.present w p rest).pending = rest := rfl

@[simp] theorem State.blockReset_cfg (s : State) (rest : List HostMove) : (s.blockReset rest).cfg = s.cfg := rfl
@[simp] theorem State.blockReset_bf (s : State) (rest : List HostMove) : (s.blockReset rest).bf = List.replicate s.cfg.W .unwritten := rfl
@[simp] theorem State.blockReset_cmd (s : State) (rest : List HostMove) : (s.blockReset rest).cmd = s.cmd := rfl
@[simp] theorem State.blockReset_inp (s : State) (rest : List HostMove) : (s.blockReset rest).inp = s.inp := rfl
@[simp] theorem State.blockReset_seq (s : State) (rest : List HostMove) : (s.blockReset rest).seq = s.seq := rfl
@[simp] theorem State.blockReset_resp (s : State) (rest : List HostMove) : (s.blockReset rest).resp = none := rfl
@[simp] theorem State.blockReset_faults (s : State) (rest : List HostMove) : (s.blockReset rest).faults = [] := rfl
@[simp] theorem State.blockReset_pending (s : State) (rest : List HostMove) : (s.blockReset rest).pending = rest := rfl

@[simp] theorem State.issueFirst_cfg (s : State) (w : CmdWord) : (s.issueFirst w).cfg = s.cfg := rfl
@[simp] theorem State.issueFirst_bf (s : State) (w : CmdWord) : (s.issueFirst w).bf = s.bf := rfl
@[simp] theorem State.issueFirst_cmd (s : State) (w : CmdWord) : (s.issueFirst w).cmd = s.cmd := rfl
@[simp] theorem State.issueFirst_inp (s : State) (w : CmdWord) : (s.issueFirst w).inp = s.inp := rfl
@[simp] theorem State.issueFirst_seq (s : State) (w : CmdWord) : (s.issueFirst w).seq = s.seq := rfl
@[simp] theorem State.issueFirst_resp (s : State) (w : CmdWord) : (s.issueFirst w).resp = s.resp := rfl
@[simp] theorem State.issueFirst_faults (s : State) (w : CmdWord) : (s.issueFirst w).faults = s.faults := rfl
@[simp] theorem State.issueFirst_pending (s : State) (w : CmdWord) : (s.issueFirst w).pending = .issue w {} :: s.pending := rfl

@[simp] theorem State.fresh_cfg (c : Config) : (State.fresh c).cfg = c := rfl
@[simp] theorem State.fresh_bf (c : Config) : (State.fresh c).bf = List.replicate c.W .unwritten := rfl
@[simp] theorem State.fresh_faults (c : Config) : (State.fresh c).faults = [] := rfl
@[simp] theorem State.fresh_resp (c : Config) : (State.fresh c).resp = none := rfl
@[simp] theorem State.fresh_pending (c : Config) : (State.fresh c).pending = [] := rfl

end Sys2Proof.Machine
end

