-- ==== Sys2Proof/Laws/Ops.lean ====
section
/-! SUPPORT. Each shared operation: everything it can do, said once. -/

namespace Sys2Proof.Machine

/-! BF bit by bit. -/

theorem bfBit_of_lt {bf : List BfBit} {j : Nat} (h : j < bf.length) : bfBit bf j = bf[j] := by
  simp [bfBit, h]

theorem bfBit_of_le {bf : List BfBit} {j : Nat} (h : bf.length ≤ j) : bfBit bf j = .unwritten := by
  simp [bfBit, h]

/-- Two BFs of one length that agree bit by bit are one. -/
theorem bf_ext {x y : List BfBit} (hl : x.length = y.length) (h : ∀ j < x.length, bfBit x j = bfBit y j) : x = y := by
  apply List.ext_getElem hl
  intro j hx hy
  rw [← bfBit_of_lt hx, ← bfBit_of_lt hy, h j hx]

@[simp] theorem bfBit_cons_zero (b : BfBit) (l : List BfBit) : bfBit (b :: l) 0 = b := rfl
@[simp] theorem bfBit_cons_succ (b : BfBit) (l : List BfBit) (j : Nat) : bfBit (b :: l) (j + 1) = bfBit l j := by
  simp [bfBit]

theorem bfBit_replicate {w j : Nat} {b : BfBit} (h : j < w) : bfBit (List.replicate w b) j = b := by
  simp [bfBit, h]

@[simp] theorem bfOfNat_length (w v : Nat) : (bfOfNat w v).length = w := by
  induction w generalizing v with
  | zero => rfl
  | succ w ih => simp [bfOfNat, ih]

theorem bfBit_bfOfNat {w j : Nat} (v : Nat) (h : j < w) : bfBit (bfOfNat w v) j = .val (v.testBit j) := by
  induction w generalizing v j with
  | zero => omega
  | succ w ih =>
    cases j with
    | zero => simp [bfOfNat, Nat.testBit_zero, beq_eq_decide]
    | succ j => simp [bfOfNat, ih (v / 2) (by omega : j < w), Nat.testBit_succ]

/-- Writing a value makes BF hold it. -/
theorem holdsValue_bfOfNat (w v : Nat) : HoldsValue (bfOfNat w v) w v :=
  ⟨bfOfNat_length w v, fun _ h => bfBit_bfOfNat v h⟩

theorem bfToNat_bfOfNat (w v : Nat) : bfToNat (bfOfNat w v) = some (v % 2 ^ w) := by
  induction w generalizing v with
  | zero => simp [bfOfNat, bfToNat, Nat.mod_one]
  | succ w ih =>
    simp only [bfOfNat, bfToNat, ih, Option.map_some, Option.some.injEq, bitVal]
    rw [pow_succ', Nat.mod_mul]
    rcases Nat.mod_two_eq_zero_or_one v with h | h <;> simp [h]

/-- A BF that holds v is `BF <- v`. -/
theorem eq_bfOfNat_of_holdsValue {bf : List BfBit} {w v : Nat} (h : HoldsValue bf w v) : bf = bfOfNat w v :=
  bf_ext (by simp [h.1]) fun j hj => by rw [h.2 j (h.1 ▸ hj), bfBit_bfOfNat v (h.1 ▸ hj)]

theorem bfToNat_of_holdsValue {bf : List BfBit} {w v : Nat} (h : HoldsValue bf w v) (hv : v < 2 ^ w) :
    bfToNat bf = some v := by
  rw [eq_bfOfNat_of_holdsValue h, bfToNat_bfOfNat, Nat.mod_eq_of_lt hv]

theorem bfToNat_lt {bf : List BfBit} {v : Nat} (h : bfToNat bf = some v) : v < 2 ^ bf.length := by
  induction bf generalizing v with
  | nil => obtain rfl : v = 0 := by simpa [bfToNat] using h.symm
           simp
  | cons b l ih =>
    cases b with
    | unwritten => simp [bfToNat] at h
    | val b =>
      simp only [bfToNat, Option.map_eq_some_iff] at h
      obtain ⟨n, hn, rfl⟩ := h
      have := ih hn
      simp only [List.length_cons, pow_succ, bitVal]
      split <;> omega

/-- All W bits can be read exactly when none is unwritten (10_state.md R32). -/
theorem bfToNat_eq_none {bf : List BfBit} : bfToNat bf = none ↔ ∃ j < bf.length, bfBit bf j = .unwritten := by
  induction bf with
  | nil => simp [bfToNat]
  | cons b l ih =>
    cases b with
    | unwritten => simp only [bfToNat, true_iff]; exact ⟨0, by simp, rfl⟩
    | val b =>
      simp only [bfToNat, Option.map_eq_none_iff, ih, List.length_cons]
      constructor
      · rintro ⟨j, hj, h⟩; exact ⟨j + 1, by omega, by simpa using h⟩
      · rintro ⟨j, hj, h⟩
        cases j with
        | zero => simp at h
        | succ j => exact ⟨j, by omega, by simpa using h⟩

@[simp] theorem bfZero_length (w : Nat) : (bfZero w).length = w := by simp [bfZero]
theorem bfBit_bfZero {w j : Nat} (h : j < w) : bfBit (bfZero w) j = .val false := bfBit_replicate h

@[simp] theorem bfSetBit_length (bf : List BfBit) (i : Nat) (b : Bool) : (bfSetBit bf i b).length = bf.length := by
  simp [bfSetBit]

theorem bfBit_bfSetBit {bf : List BfBit} {i : Nat} (b : Bool) (j : Nat) (h : i < bf.length) :
    bfBit (bfSetBit bf i b) j = if j = i then .val b else bfBit bf j := by
  by_cases hj : j = i
  · subst hj; simp [bfBit, bfSetBit, h]
  · simp [bfBit, bfSetBit, hj, Ne.symm hj]

@[simp] theorem bfShiftLeft_length (w : Nat) (bf : List BfBit) (s : Nat) : (bfShiftLeft w bf s).length = w := by
  simp [bfShiftLeft]

theorem bfBit_bfShiftLeft {w j : Nat} (bf : List BfBit) (s : Nat) (h : j < w) :
    bfBit (bfShiftLeft w bf s) j = if s ≤ j then bfBit bf (j - s) else .val false := by
  rw [bfBit_of_lt (by simpa using h)]
  simp [bfShiftLeft]

@[simp] theorem bfShiftRight_length (w : Nat) (bf : List BfBit) (s : Nat) : (bfShiftRight w bf s).length = w := by
  simp [bfShiftRight]

theorem bfBit_bfShiftRight {w j : Nat} (bf : List BfBit) (s : Nat) (h : j < w) :
    bfBit (bfShiftRight w bf s) j = if j + s < w then bfBit bf (j + s) else .val false := by
  rw [bfBit_of_lt (by simpa using h)]
  simp [bfShiftRight]

/-! The run of 40_bitfield_register.md R108. -/

theorem bfRunBelow_le {bf : List BfBit} {b : Bool} {j n : Nat} (h : bfRunBelow bf b j = some n) : n ≤ j := by
  induction j generalizing n with
  | zero => simp_all [bfRunBelow]
  | succ j ih =>
    simp only [bfRunBelow] at h
    split at h
    · simp at h
    · split at h
      · simp only [Option.map_eq_some_iff] at h
        obtain ⟨m, hm, rfl⟩ := h
        have := ih hm
        omega
      · obtain rfl : n = 0 := by simpa using h.symm
        omega

/-- The run goes on for n bits of b and ends at the bottom or at the first bit that differs. -/
theorem bfRunBelow_eq {bf : List BfBit} {b : Bool} {j n : Nat} (hn : n ≤ j)
    (run : ∀ l < n, bfBit bf (j - 1 - l) = .val b) (stop : n = j ∨ bfBit bf (j - 1 - n) = .val (!b)) :
    bfRunBelow bf b j = some n := by
  induction j generalizing n with
  | zero => simp_all [bfRunBelow]
  | succ j ih =>
    cases n with
    | zero =>
      rcases stop with h | h
      · omega
      · simp only [Nat.add_sub_cancel, Nat.sub_zero] at h
        cases b <;> simp [bfRunBelow, h]
    | succ n =>
      have h0 : bfBit bf j = .val b := by simpa using run 0 (by omega)
      have hr : bfRunBelow bf b j = some n := by
        apply ih (by omega)
        · intro l hl
          have := run (l + 1) (by omega)
          rwa [show j + 1 - 1 - (l + 1) = j - 1 - l by omega] at this
        · rcases stop with h | h
          · exact .inl (by omega)
          · exact .inr (by rwa [show j + 1 - 1 - (n + 1) = j - 1 - n by omega] at h)
      simp [bfRunBelow, h0, hr]

/-- A count is in 1 .. i + 1 (40_bitfield_register.md R108). -/
theorem bfRun_range {bf : List BfBit} {i n : Nat} (h : bfRun bf i = some n) : 1 ≤ n ∧ n ≤ i + 1 := by
  unfold bfRun at h
  split at h
  · simp at h
  · simp only [Option.map_eq_some_iff] at h
    obtain ⟨m, hm, rfl⟩ := h
    have := bfRunBelow_le hm
    omega

theorem bfRun_reads {bf : List BfBit} {i : Nat} {b : Bool} (h : bfBit bf i = .val b) :
    bfRun bf i = (bfRunBelow bf b i).map (· + 1) := by simp [bfRun, h]

/-! How a command ends. -/

/-- The two ends of a command that reads what may be unwritten. -/
theorem orUnwritten_cases {α : Type} (read : Option α) (s : State) (go : α → State) :
    (∃ x, read = some x ∧ orUnwritten read s go = go x) ∨
      (read = none ∧ orUnwritten read s go = s.raise .unwrittenRead) := by
  cases read with
  | none => exact .inr ⟨rfl, rfl⟩
  | some x => exact .inl ⟨x, rfl, rfl⟩

@[simp] theorem orUnwritten_some {α : Type} (x : α) (s : State) (go : α → State) : orUnwritten (some x) s go = go x := rfl
@[simp] theorem orUnwritten_none {α : Type} (s : State) (go : α → State) :
    orUnwritten none s go = s.raise .unwrittenRead := rfl

theorem checkIndex_of_lt {i : Nat} {s go : State} (h : i < s.cfg.W) : checkIndex i s go = go := if_pos h
theorem checkIndex_of_le {i : Nat} {s go : State} (h : s.cfg.W ≤ i) : checkIndex i s go = s.raise .indexOutOfRange :=
  if_neg (by omega)

theorem portA_eq (s : State) : portA s = s.inp.a % 2 ^ s.cfg.W := bitsAt_zero _ _
theorem portB_eq (s : State) : portB s = s.inp.b % 2 ^ s.cfg.W := bitsAt_zero _ _
theorem portWd_eq (s : State) : portWd s = s.inp.wd % 2 ^ s.cfg.W := bitsAt_zero _ _
theorem portN_eq (s : State) : portN s = s.inp.n % 2 ^ s.cfg.MW := bitsAt_zero _ _

/-- An operand that is readable is what the command reads. -/
theorem operandA_of_operandIs {rs : Bool} {s : State} {A : Bits} (h : OperandIs rs s A) : operandA rs s = some A := by
  obtain ⟨hA, h⟩ := h
  cases rs with
  | false => simp only [Bool.false_eq_true, if_false] at h; simp [operandA, portA_eq, h]
  | true => simp only [if_true] at h; simp [operandA, bfToNat_of_holdsValue h hA]

/-- A posit result completes the command; with RD = 1 it is BF's new value, else BF stays (30_encoding.md R83). -/
theorem positResult_eq (rd : Bool) (r : Bits) (s : State) :
    positResult rd r s = { s with
      bf := if rd then bfOfNat s.cfg.W r else s.bf
      resp := some { err := false, errCode := 0, out := { r := some r } } } := by
  cases rd <;> rfl

theorem operandA_lt {rs : Bool} {s : State} {A : Bits} (hl : s.bf.length = s.cfg.W) (h : operandA rs s = some A) :
    A < 2 ^ s.cfg.W := by
  cases rs with
  | false =>
    simp only [operandA, Bool.false_eq_true, if_false, Option.some.injEq] at h
    exact h ▸ bitsAt_lt _ _ _
  | true => exact hl ▸ bfToNat_lt (by simpa [operandA] using h)

/-! The step, once for all. -/

/-- Everything a step can answer with a next state. -/
theorem step_next_cases {s t : State} (h : step s = .next t) : s.cfg.Legal ∧
    ((∃ rest, s.pending = .reset :: rest ∧ t = s.blockReset rest) ∨
     (∃ w p rest i, s.pending = .issue w p :: rest ∧ decode w = .ok i ∧ exec i (s.present w p rest) = .next t) ∨
     (∃ w p rest r, s.pending = .issue w p :: rest ∧ decode w = .error r ∧ t = (s.present w p rest).rejectWord)) := by
  unfold step at h
  split at h
  · rename_i hL
    refine ⟨hL, ?_⟩
    split at h
    · cases h
    · rename_i rest hp
      exact .inl ⟨rest, hp, by cases h; rfl⟩
    · rename_i w p rest hp
      split at h
      · rename_i i hd
        exact .inr (.inl ⟨w, p, rest, i, hp, hd, h⟩)
      · rename_i r hd
        exact .inr (.inr ⟨w, p, rest, r, hp, hd, by cases h; rfl⟩)
  · cases h

/-! Runs. -/

/-- A clean run starts and ends with an empty fault record (60_exceptions.md R232, 70_reset_and_hazards.md R269). -/
theorem CleanRun.clean {n : Nat} {s t : State} (h : CleanRun n s t) : s.Clean ∧ t.Clean := by
  induction n generalizing s with
  | zero => exact ⟨h.2, h.1 ▸ h.2⟩
  | succ n ih => obtain ⟨hs, u, -, hu⟩ := h; exact ⟨hs, (ih hu).2⟩

end Sys2Proof.Machine
end

