-- ==== Sys2Proof/Laws/PerInstr.lean ====
section
/-! SUPPORT. What holds of every command as a term, one lemma per constructor. -/

namespace Sys2Proof.Laws

open Sys2Proof.Machine

/-- The fields of a word built by the encoder are the ones it was given (30_encoding.md R81). -/
theorem wordOf_fields {op : Nat} (v rs rd : Bool) {idx : Nat} (ho : op < 32) (hi : idx < 65536) :
    opField (wordOf op v rs rd idx) = op ∧ vField (wordOf op v rs rd idx) = v ∧ rsField (wordOf op v rs rd idx) = rs ∧
      rdField (wordOf op v rs rd idx) = rd ∧ reservedField (wordOf op v rs rd idx) = 0 ∧
      idxField (wordOf op v rs rd idx) = idx := by
  have hb (b : Bool) : bitVal b ≤ 1 := by cases b <;> simp [bitVal]
  have h1 := hb v
  have h2 := hb rs
  have h3 := hb rd
  have hw : (wordOf op v rs rd idx).toNat =
      op + 2 ^ 5 * bitVal v + 2 ^ 6 * bitVal rs + 2 ^ 7 * bitVal rd + 2 ^ 16 * idx := by
    rw [wordOf, BitVec.toNat_ofNat, Nat.mod_eq_of_lt]
    omega
  have bit (b : Bool) {n : Nat} (h : n = bitVal b) : (n == 1) = b := by cases b <;> simp [h, bitVal]
  simp only [opField, vField, rsField, rdField, reservedField, idxField, bitsAt, hw]
  exact ⟨by omega, bit _ (by omega), bit _ (by omega), bit _ (by omega), by omega, by omega⟩

end Sys2Proof.Laws

namespace Sys2Proof.Laws.EncodedFields

open Sys2Proof.Machine

/-- The encoder puts the command's opcode, its V, RS and RD bits and its immediate in their places, and leaves the
reserved bits 0 (30_encoding.md R81, R84). -/
def Statement (i : Instr) : Prop :=
  i.WellFormed → opField (encode i) = i.op ∧ vField (encode i) = i.flagBits.1 ∧ rsField (encode i) = i.flagBits.2.1 ∧
    rdField (encode i) = i.flagBits.2.2 ∧ reservedField (encode i) = 0 ∧ idxField (encode i) = i.imm?.getD 0

theorem bfReset : Statement .bfReset := fun h => wordOf_fields _ _ _ (by simp [Instr.op]) h
theorem bfGet (n : Nat) : Statement (.bfGet n) := fun h => wordOf_fields _ _ _ (by simp [Instr.op]) h
theorem bfSet (n : Nat) (v : Bool) : Statement (.bfSet n v) := fun h => wordOf_fields _ _ _ (by simp [Instr.op]) h
theorem bfShl (n : Nat) : Statement (.bfShl n) := fun h => wordOf_fields _ _ _ (by simp [Instr.op]) h
theorem bfShr (n : Nat) : Statement (.bfShr n) := fun h => wordOf_fields _ _ _ (by simp [Instr.op]) h
theorem bfRun (n : Nat) : Statement (.bfRun n) := fun h => wordOf_fields _ _ _ (by simp [Instr.op]) h
theorem bfLoad : Statement .bfLoad := fun h => wordOf_fields _ _ _ (by simp [Instr.op]) h
theorem bfRead : Statement .bfRead := fun h => wordOf_fields _ _ _ (by simp [Instr.op]) h
theorem pRegime (rs : Bool) : Statement (.pRegime rs) := fun h => wordOf_fields _ _ _ (by simp [Instr.op]) h
theorem pDecode (rs : Bool) : Statement (.pDecode rs) := fun h => wordOf_fields _ _ _ (by simp [Instr.op]) h
theorem pIsZero (rs : Bool) : Statement (.pIsZero rs) := fun h => wordOf_fields _ _ _ (by simp [Instr.op]) h
theorem pIsNar (rs : Bool) : Statement (.pIsNar rs) := fun h => wordOf_fields _ _ _ (by simp [Instr.op]) h
theorem pEncode (rd : Bool) : Statement (.pEncode rd) := fun h => wordOf_fields _ _ _ (by simp [Instr.op]) h
theorem pNorm : Statement .pNorm := fun h => wordOf_fields _ _ _ (by simp [Instr.op]) h
theorem pDenorm (n : Nat) : Statement (.pDenorm n) := fun h => wordOf_fields _ _ _ (by simp [Instr.op]) h
theorem pNeg (rs rd : Bool) : Statement (.pNeg rs rd) := fun h => wordOf_fields _ _ _ (by simp [Instr.op]) h
theorem pAdd (rs rd : Bool) : Statement (.pAdd rs rd) := fun h => wordOf_fields _ _ _ (by simp [Instr.op]) h
theorem pSub (rs rd : Bool) : Statement (.pSub rs rd) := fun h => wordOf_fields _ _ _ (by simp [Instr.op]) h

end Sys2Proof.Laws.EncodedFields
end

