-- ==== Sys2Proof/Laws/Posit.lean ====
section
/-! SUPPORT. The posit units: the run, the regime, the magnitude field, the negator and the normalizer. -/

namespace Sys2Proof.Machine

/-! The run of 41_regime_decoder.md R130. -/

theorem runLength_le (f : Nat) (b : Bool) (n : Nat) : runLength f b n ≤ n := by
  induction n with
  | zero => simp [runLength]
  | succ n ih => unfold runLength; split <;> omega

/-- The bits of the run are b. -/
theorem runLength_bits {f : Nat} {b : Bool} {n l : Nat} (h : l < runLength f b n) : f.testBit (n - 1 - l) = b := by
  induction n generalizing l with
  | zero => simp [runLength] at h
  | succ n ih =>
    unfold runLength at h
    split at h
    · rename_i hb
      cases l with
      | zero => simpa using hb
      | succ l =>
        have := ih (l := l) (by omega)
        rwa [show n + 1 - 1 - (l + 1) = n - 1 - l by omega]
    · omega

/-- The run ends at the bottom or at a bit that differs. -/
theorem runLength_stop {f : Nat} {b : Bool} {n : Nat} (h : runLength f b n < n) :
    f.testBit (n - 1 - runLength f b n) = !b := by
  induction n with
  | zero => omega
  | succ n ih =>
    unfold runLength at h ⊢
    split
    · rename_i hb
      simp only [hb, if_true] at h
      have := ih (by omega)
      rwa [show n + 1 - 1 - (runLength f b n + 1) = n - 1 - runLength f b n by omega]
    · rename_i hb
      simpa using Bool.eq_not_of_ne hb

/-- The run length is the one number with these two properties. -/
theorem runLength_eq {f : Nat} {b : Bool} {n m : Nat} (hm : m ≤ n) (run : ∀ l < m, f.testBit (n - 1 - l) = b)
    (stop : m = n ∨ f.testBit (n - 1 - m) ≠ b) : runLength f b n = m := by
  rcases lt_trichotomy (runLength f b n) m with h | h | h
  · have h1 := run _ h
    rw [runLength_stop (by omega)] at h1
    simp at h1
  · exact h
  · have h1 := runLength_bits h
    have := runLength_le f b n
    rcases stop with h2 | h2
    · omega
    · exact absurd h1 h2

/-- Only the bits scanned matter. -/
theorem runLength_congr {f g : Nat} {b : Bool} {n : Nat} (h : ∀ l < n, f.testBit l = g.testBit l) :
    runLength f b n = runLength g b n := by
  induction n with
  | zero => rfl
  | succ n ih => simp only [runLength, h n (by omega), ih fun l hl => h l (by omega)]

/-- The regime unit's run and BF_RUN's are one count (40_bitfield_register.md R109). -/
theorem bfRunBelow_of_holdsValue {bf : List BfBit} {w v : Nat} (h : HoldsValue bf w v) (b : Bool) {n : Nat} (hn : n ≤ w) :
    bfRunBelow bf b n = some (runLength v b n) := by
  induction n with
  | zero => rfl
  | succ n ih =>
    simp only [bfRunBelow, runLength, h.2 n (by omega), ih (by omega), Option.map_some]
    split <;> rfl

/-- `1 <= m <= W-1` (41_regime_decoder.md R132). -/
theorem regime_m_range {w f : Nat} (hw : 2 ≤ w) : 1 ≤ (regime w f).2 ∧ (regime w f).2 ≤ w - 1 := by
  refine ⟨?_, runLength_le _ _ _⟩
  obtain ⟨n, rfl⟩ : ∃ n, w = n + 2 := ⟨w - 2, by omega⟩
  simp [regime, runLength]

/-- `-(W-1) <= k <= W-2` (41_regime_decoder.md R132). -/
theorem regime_k_range {w f : Nat} (hw : 2 ≤ w) : -((w : Int) - 1) ≤ (regime w f).1 ∧ (regime w f).1 ≤ (w : Int) - 2 := by
  have h := regime_m_range (f := f) hw
  have e : (regime w f).1 = if f.testBit (w - 2) then ((regime w f).2 : Int) - 1 else -((regime w f).2 : Int) := rfl
  rw [e]
  split <;> constructor <;> omega

/-- `1 <= c <= W-1`, and `c >= 2` whenever `W >= 3` (41_regime_decoder.md R132). -/
theorem consumed_range {w m : Nat} (hw : 2 ≤ w) (hm : 1 ≤ m) :
    1 ≤ consumed w m ∧ consumed w m ≤ w - 1 ∧ (3 ≤ w → 2 ≤ consumed w m) := by
  unfold consumed
  omega

/-! The fields of a pattern (42_value_decoder.md R142 to R145). -/

theorem partsOf_nf_le {c : Config} (h : c.Legal) (s : Bool) (M : Bits) : (partsOf c s M).nf ≤ c.FB_MAX := by
  have hr := consumed_range h.1 (regime_m_range (f := M) h.1).1
  have := h.1
  simp only [partsOf, Config.FB_MAX]
  omega

theorem partsOf_f_lt (c : Config) (s : Bool) (M : Bits) : (partsOf c s M).f < 2 ^ (partsOf c s M).nf := bitsAt_lt _ _ _

theorem partsOf_e_lt (c : Config) (s : Bool) (M : Bits) : (partsOf c s M).e < 2 ^ c.E := by
  simp only [partsOf]
  set nE := min c.E (c.W - 1 - consumed c.W (regime c.W M).2)
  have hE : nE ≤ c.E := Nat.min_le_left _ _
  calc _ < 2 ^ nE * 2 ^ (c.E - nE) := Nat.mul_lt_mul_of_pos_right (bitsAt_lt _ _ _) (Nat.two_pow_pos _)
    _ = 2 ^ c.E := by rw [← pow_add]; congr 1; omega

theorem testBit_top {w p : Nat} (hw : 1 ≤ w) (hp : p < 2 ^ w) : p.testBit (w - 1) = decide (2 ^ (w - 1) ≤ p) := by
  obtain ⟨n, rfl⟩ : ∃ n, w = n + 1 := ⟨w - 1, by omega⟩
  simp only [Nat.add_sub_cancel] at *
  have e : 2 ^ (n + 1) = 2 * 2 ^ n := by ring
  rcases Nat.lt_or_ge p (2 ^ n) with h | h
  · rw [Nat.testBit_lt_two_pow h]; simp [h]
  · rw [Nat.testBit_eq_decide_div_mod_eq, Nat.div_eq_of_lt_le (k := 1) (by omega) (by omega)]
    simp [h]

end Sys2Proof.Machine
end

