-- ==== Sys2Proof/Tests/Slice0.lean ====
section
/-! SUPPORT. The implementer's own tests. Expected results are the spec's (each comment names the example or table row),
none is the model's own answer. The last part shows, for every statement with hypotheses, a state and operands that
meet them. -/

namespace Sys2Proof.Tests

open Sys2Proof Sys2Proof.Machine

/-- The next state, if there is one. -/
def after : Host.Outcome State Fault Refusal → Option State
  | .next t => some t
  | .fault _ => none
  | .refused _ => none

/-- The response after a command. -/
def answer (i : Instr) (s : State) : Option Response := (after (exec i s)).bind State.resp

/-- BF after a command, if every bit of it is written. -/
def bfAfter (i : Instr) (s : State) : Option Bits := (after (exec i s)).bind fun t => bfToNat t.bf

/-- A response of a command that completed. -/
def okWith (o : Outputs) : Option Response := some { err := false, errCode := 0, out := o }

/-- A response with these `dec_*` outputs. -/
def okDec (d : DecOut) : Option Response := okWith { dec := some d }

/-- A response of a command that faulted. -/
def errWith (code : ErrCode) : Option Response := some { err := true, errCode := code, out := {} }

/-- W = 8, E = 1, the start state of 95_test_vectors.md §V3.1. -/
def s8 : State := State.loaded (Config.ofFormat 8 1) 0b10110011

/-- A block of the format (w, e) just after reset, with these inputs. -/
def at' (w e : Nat) (p : Inputs) : State := { State.fresh (Config.ofFormat w e) with inp := p }

/-! ## WellFormed and the configuration: an ill-formed term for each check, refused -/

theorem test_idx_too_wide_get : ¬ (Instr.bfGet 65536).WellFormed := by decide
theorem test_idx_too_wide_set : ¬ (Instr.bfSet 65536 true).WellFormed := by decide
theorem test_idx_too_wide_shl : ¬ (Instr.bfShl 65536).WellFormed := by decide
theorem test_idx_too_wide_shr : ¬ (Instr.bfShr 70000).WellFormed := by decide
theorem test_idx_too_wide_run : ¬ (Instr.bfRun 65536).WellFormed := by decide
theorem test_idx_too_wide_denorm : ¬ (Instr.pDenorm 65536).WellFormed := by decide
theorem test_idx_widest_is_well_formed : (Instr.bfGet 65535).WellFormed := by decide
/-- 70_reset_and_hazards.md R264: each bound, just missed. -/
theorem test_config_bounds : Config.build.Legal ∧ ¬ { Config.build with W := 1 }.Legal ∧
    ¬ { Config.build with W := 65537, MW := 70000 }.Legal ∧ ¬ { Config.build with MW := 4 }.Legal ∧
    ¬ { Config.build with FIW := 0 }.Legal ∧ ¬ { Config.build with SW := 1 }.Legal ∧
    { Config.build with MW := 5, FIW := 1, SW := 2 }.Legal := by decide
/-- 95_test_vectors.md §V0, the rows (5, 1), (8, 2) and (2, 0). -/
theorem test_derived_constants :
    [(5, 1), (8, 2), (2, 0)].map (fun we => let c := Config.ofFormat we.1 we.2
      [c.KMAX, c.SMAX, c.FB_MAX, c.FBW, c.EW, c.D_MAX, c.MW_EXACT, c.CW, c.KW, c.TW]) =
    [[3, 6, 1, 1, 1, 12, 15, 3, 4, 4], [6, 24, 3, 3, 2, 48, 53, 4, 4, 6], [0, 0, 0, 1, 1, 0, 2, 2, 2, 1]] := by decide
theorem test_build_is_the_default : Config.build = Config.ofFormat 8 1 := by decide

/-! ## Decoding: every constructor from a word of the spec, and the illegal words of 95_test_vectors.md §V3.10 -/

theorem test_decode_bitfield :
    [0x00000001, 0x00070002, 0x00020023, 0x00030004, 0xFFFF0005, 0x00050006, 0x00000007, 0x00000008].map
      (decodeTableWord 32) =
    [some .bfReset, some (.bfGet 7), some (.bfSet 2 true), some (.bfShl 3), some (.bfShr 65535), some (.bfRun 5),
      some .bfLoad, some .bfRead] := by decide
theorem test_decode_posit :
    [0x00000049, 0x0000004A, 0x0000000B, 0x0000004C, 0x0000008D, 0x0000000E, 0x0003000F, 0x000000D0, 0x00000091,
      0x000000D2].map (decodeTableWord 32) =
    [some (.pRegime true), some (.pDecode true), some (.pIsZero false), some (.pIsNar true), some (.pEncode true),
      some .pNorm, some (.pDenorm 3), some (.pNeg true true), some (.pAdd false true), some (.pSub true true)] := by
  decide
theorem test_illegal_words :
    [0x00000000, 0x00000013, 0x0000001F, 0x00000101, 0x00010001, 0x00000022, 0x00000041, 0x00000089, 0x0000004D,
      0x00000031, 0x00010011, 0x0000800F, 0x100000001].all (fun w => decodeTableWord 32 w == none) = true := by decide
theorem test_reject_names : decode 0x00000000#32 = .error .unassignedOp ∧ decode 0x00000101#32 = .error .reservedBits ∧
    decode 0x00000022#32 = .error .vNotUsed ∧ decode 0x00000041#32 = .error .rsNotUsed ∧
    decode 0x00000089#32 = .error .rdNotUsed ∧ decode 0x00010001#32 = .error .idxNotUsed := by
  refine ⟨rfl, rfl, rfl, rfl, rfl, rfl⟩
/-- 30_encoding.md R88's two examples. -/
theorem test_encode_examples : encode (.bfSet 3 true) = 0x00030023#32 ∧ encode (.pAdd true true) = 0x000000D1#32 := by
  decide

/-! ## Runs (70_reset_and_hazards.md R262, R263, R269; log entry 24) -/

theorem test_run_bfReset_from_fresh :
    ∃ t, SuccessfulRun 1 { at' 8 1 {} with pending := [.issue 0x00000001#32 {}] } t :=
  ⟨_, ⟨by decide, by decide, .inl (by decide)⟩, by decide, _, rfl, rfl, by decide⟩
/-- BF_READ from fresh faults (R111); the block reset after it empties the record, and the run is not successful. -/
theorem test_run_fault_then_reset :
    let s : State := { at' 8 1 {} with pending := [.issue 0x00000008#32 {}, .reset] }
    ((after (step s)).bind fun u => after (step u)).map State.faults = some [] ∧ ∀ t, ¬ SuccessfulRun 2 s t := by
  refine ⟨by decide, fun t h => ?_⟩
  obtain ⟨-, -, u, hu, hc, -⟩ := h
  have : after (.next u : Host.Outcome State Fault Refusal) = some u := rfl
  rw [← hu] at this
  have hf : (after (step { at' 8 1 {} with pending := [.issue 0x00000008#32 {}, .reset] })).any
      (fun u => u.faults.isEmpty) = false := by decide
  rw [this] at hf
  simp [State.Clean] at hc
  simp [hc] at hf

/-! ## bitfield_register (40_bitfield_register.md's examples, 95_test_vectors.md §V3.1 and §V4 Program 4) -/

theorem test_bfReset : bfAfter .bfReset s8 = some 0 ∧ answer .bfReset s8 = okWith {} := by decide
theorem test_bfGet : answer (.bfGet 7) s8 = okWith { bit := some true } ∧
    answer (.bfGet 2) s8 = okWith { bit := some false } := by decide
theorem test_bfGet_faults : answer (.bfGet 8) (at' 8 1 {}) = errWith 2 ∧ answer (.bfGet 0) (at' 8 1 {}) = errWith 3 := by
  decide
theorem test_bfSet : bfAfter (.bfSet 2 true) s8 = some 0b10110111 ∧ bfAfter (.bfSet 7 false) s8 = some 0b00110011 := by
  decide
theorem test_bfSet_from_fresh : (after (exec (.bfSet 0 true) (at' 8 1 {}))).map State.bf =
    some (.val true :: List.replicate 7 .unwritten) := by decide
theorem test_bfShl : bfAfter (.bfShl 3) s8 = some 0b10011000 ∧ bfAfter (.bfShl 8) s8 = some 0 := by decide
theorem test_bfShl_moves_marks : (after (exec (.bfShl 3) (at' 8 1 {}))).map State.bf =
    some (List.replicate 3 (.val false) ++ List.replicate 5 .unwritten) := by decide
theorem test_bfShr : bfAfter (.bfShr 3) s8 = some 0b00010110 ∧ bfAfter (.bfShr 65535) s8 = some 0 := by decide
theorem test_bfRun : [7, 5, 3, 1, 0].map (fun i => answer (.bfRun i) s8) =
    [1, 2, 2, 2, 1].map (fun n => okWith { cnt := some n }) := by decide
/-- §V4 Program 4, steps 4 and 5: BF = uuuuuuu1. -/
theorem test_bfRun_reads_only_the_run :
    let s := { at' 8 1 {} with bf := .val true :: List.replicate 7 .unwritten }
    answer (.bfRun 0) s = okWith { cnt := some 1 } ∧ answer (.bfRun 1) s = errWith 3 := by decide
theorem test_bfLoad : bfAfter .bfLoad (at' 8 1 { wd := 0b01000000 }) = some 0b01000000 := by decide
theorem test_bfRead : answer .bfRead s8 = okWith { r := some 0b10110011 } ∧
    answer .bfRead (at' 8 1 {}) = errWith 3 := by decide

/-! ## posit_regime_decoder and posit_value_decoder (41 R133, R135; 42 R151 to R153; 95 §V3.2, §V3.3) -/

theorem test_pRegime : answer (.pRegime false) (at' 5 1 { a := 0b01101 }) = okWith { k := some 1, cnt := some 3 } := by
  decide
/-- §V3.2: the all-zero field of W = 8 has k = -7, driven as 1001. -/
theorem test_pRegime_negative_k : answer (.pRegime false) (at' 8 1 {}) = okWith { k := some 0b1001, cnt := some 7 } := by
  decide
theorem test_regime_table : (List.range 16).map (fun f => (regime 5 f, consumed 5 (regime 5 f).2)) =
    [((-4, 4), 4), ((-3, 3), 4), ((-2, 2), 3), ((-2, 2), 3), ((-1, 1), 2), ((-1, 1), 2), ((-1, 1), 2), ((-1, 1), 2),
      ((0, 1), 2), ((0, 1), 2), ((0, 1), 2), ((0, 1), 2), ((1, 2), 3), ((1, 2), 3), ((2, 3), 4), ((3, 4), 4)] := by
  decide
theorem test_pDecode : answer (.pDecode false) (at' 5 1 { a := 0b10101 }) = okDec
    { decSign := true, decK := 0, decNr := 2, decNe := 1, decE := 1, decNf := 1, decFrac := 1, decScale := 1 } := by
  decide
/-- §V3.3, W = 8, E = 2: the truncated exponent of 01111101 is 2, not 1 (90_conflicts.md C7). -/
theorem test_pDecode_truncated_exponent : answer (.pDecode false) (at' 8 2 { a := 0b01111101 }) = okDec
    { decK := 4, decNr := 6, decNe := 1, decE := 2, decNf := 0, decFrac := 0, decScale := 18 } := by decide
theorem test_pIsZero : answer (.pIsZero false) (at' 4 0 {}) = okWith { bit := some true } ∧
    answer (.pIsZero false) (at' 4 0 { a := 0b1000 }) = okWith { bit := some false } := by decide
theorem test_pIsNar : answer (.pIsNar false) (at' 4 0 { a := 0b1000 }) = okWith { bit := some true } ∧
    answer (.pIsNar false) (at' 4 0 { a := 0b1001 }) = okWith { bit := some false } := by decide

/-! ## posit_value_encoder (43 R168, R169; 95 §V3.5) -/

/-- 1.75 at W = 4, E = 0 rounds to 2, and RD = 1 writes it. -/
theorem test_pEncode : (let s := at' 4 0 { uFrac := 0b1100000 }
    answer (.pEncode true) s = okWith { r := some 0b0110 } ∧ bfAfter (.pEncode true) s = some 0b0110) := by decide
/-- u_nar wins over u_zero; -1/8 clamps to -MINPOS (u_scale = -3 on SW = 32 bits). -/
theorem test_pEncode_corners : answer (.pEncode false) (at' 4 0 { uNar := true, uZero := true }) =
      okWith { r := some 0b1000 } ∧
    answer (.pEncode false) (at' 4 0 { uSign := true, uScale := 0xFFFFFFFD }) = okWith { r := some 0b1111 } := by decide

/-! ## posit_normalizer, posit_negator, posit_adder_subtractor (44, 45, 46; 95 §V3.6 to §V3.9) -/

/-- The block of §V3.6: W = 4, E = 0, MW = 8. -/
def mw8 (n : Bits) : State := { State.fresh { Config.ofFormat 4 0 with MW := 8 } with inp := { n := n } }

theorem test_pNorm : answer .pNorm (mw8 0b10110000) = okWith { rn := some 0b11011000 } ∧
    answer .pNorm (mw8 0b00000001) = okWith { rn := some 0b10000000 } := by decide
theorem test_pDenorm : answer (.pDenorm 6) (mw8 0b11011000) = okWith { rn := some 0b00000011 } ∧
    answer (.pDenorm 7) (mw8 0b11011000) = okWith { rn := some 0 } := by decide
theorem test_pNeg : answer (.pNeg false false) (at' 4 0 { a := 0b0011 }) = okWith { r := some 0b1101 } ∧
    answer (.pNeg false false) (at' 4 0 { a := 0b1000 }) = okWith { r := some 0b1000 } := by decide
/-- §V1.2 and §V1.4: 1 + 1/2 is exact, 64 + 64 saturates. -/
theorem test_pAdd : answer (.pAdd false false) (at' 4 0 { a := 0b0100, b := 0b0010 }) = okWith { r := some 0b0101 } ∧
    answer (.pAdd false false) (at' 5 1 { a := 0b01111, b := 0b01111 }) = okWith { r := some 0b01111 } := by decide
/-- §V3.9: below MW_EXACT the truncated sum differs from the correctly rounded one. -/
theorem test_pAdd_narrow : positAdd { Config.ofFormat 8 0 with MW := 8 } 0b00000101 0b10010000 = 0b10010000 ∧
    positAdd (Config.ofFormat 8 0) 0b00000101 0b10010000 = 0b10010001 := by decide
/-- §V3.8 and §V4 Program 2, step 4: BF = 5/2, minus 4, is -3/2. -/
theorem test_pSub : answer (.pSub false false) (at' 4 0 { a := 0b0010, b := 0b0100 }) = okWith { r := some 0b1110 } ∧
    bfAfter (.pSub true true) { State.loaded (Config.ofFormat 8 1) 0b01010100 with inp := { b := 0b01100000 } } =
      some 0b10111000 := by decide

/-! ## The step -/

/-- §V4 Program 4, step 8, as the first command: a reserved bit faults, nothing is cleared, the record has one entry. -/
theorem test_step_illegal : (after (step (s8.withFetchWord 32 0x101))).map (fun t => (t.bf, t.resp, t.faults)) =
    some (s8.bf, errWith 1, [{ n := 1, cmd := 0x101, cause := .illegalCommand }]) := by decide
theorem test_step_runs_first_after_reset :
    (after (step (State.reset.withFetchWord 32 1))).map (fun t => (bfToNat t.bf, t.seq)) = some (some 0, 1) := by decide
theorem test_step_block_reset : (after (step { s8 with pending := [.reset] })).map (fun t => (t.bf, t.resp)) =
    some (List.replicate 8 .unwritten, none) := by decide
theorem reset_inv : State.reset.Inv := ⟨by decide, by decide, by decide, by decide, by decide⟩

/-! ## Witnesses: for each statement with hypotheses, a state and operands that meet them -/

/-- A legal format used below: W = 5, E = 1. -/
def c51 : Config := Config.ofFormat 5 1

/-- A host about to issue this word to the block of `s8`. -/
def issuing (w : CmdWord) : State := { s8 with pending := [.issue w {}] }

theorem witness_DecodeOfEncodeIsTheCommand : (Instr.bfSet 65535 true).WellFormed ∧ (Instr.pDenorm 0).WellFormed := by
  decide
theorem witness_EncodeOfDecodeIsTheWord : decode 0xFFFF0023#32 = .ok (.bfSet 65535 true) := rfl
theorem witness_DecodeAgreesWithOpcodeTable :
    0xFFFF0023#32 &&& 0x0000FFDF#32 = 0x00000003#32 ∧ (⟨"BF_SET", 0x0000FFDF#32, 0x00000003#32⟩ : OpRow) ∈ opcodeTable := by
  decide
theorem witness_StepRunsTheDecodedCommand : (issuing 0x49).cfg.Legal ∧ (issuing 0x49).pending = .issue 0x49#32 {} :: [] ∧
    decode 0x49#32 = .ok (.pRegime true) := ⟨by decide, rfl, rfl⟩
theorem witness_UnmatchedWordRaisesIllegalCommand : (issuing 0x101).cfg.Legal ∧
    (issuing 0x101).pending = .issue 0x101#32 {} :: [] ∧ ∀ row ∈ opcodeTable, 0x101#32 &&& row.mask ≠ row.value := by
  decide
/-- One configuration for each bound of the disjunction. -/
theorem witness_IllegalConfigurationIsRefused :
    (1 : Nat) < 2 ∧ 65536 < (65537 : Nat) ∧ (let c := { Config.build with MW := 4 }; c.MW < max 1 (c.W - 3 - c.E) + 1) ∧
    { Config.build with FIW := 0 }.FIW < 1 ∧ { Config.build with SW := 1 }.SW < 2 := by decide
theorem witness_BlockResetMakesBfUnwritten : ({ s8 with pending := [.reset] } : State).cfg.Legal ∧
    ({ s8 with pending := [.reset] } : State).pending = .reset :: [] := by decide
theorem witness_LaunchPremisesMeetTheInvariant : Config.build.Legal ∧ 255 < 2 ^ Config.build.W := by decide
theorem witness_StepKeepsTheInvariant :
    ({ State.reset with pending := [.issue 0x101#32 {}] } : State).Inv ∧
      ∃ t, step { State.reset with pending := [.issue 0x101#32 {}] } = .next t :=
  ⟨⟨by decide, by decide, by decide, by decide, by decide⟩, _, rfl⟩
theorem witness_StepKeepsBooks : (∃ t, step (issuing 0x00080002) = .next t) ∧
    (issuing 0x00080002).pending = .issue 0x00080002#32 {} :: [] := ⟨⟨_, rfl⟩, rfl⟩
theorem witness_IndexOutOfRangeIsRaised : s8.cfg.W ≤ 8 := by decide
/-- Bit 1 of uuuuuu10 after BF_SHL (Program 4, steps 9 and 10): the last bit a run from bit 2 reads, and the highest. -/
theorem witness_UnwrittenReadIsRaised :
    let s : State := { s8 with bf := [.val false, .val true, .unwritten, .val true, .val true, .val true, .val true, .val true] }
    s.bf.length = s.cfg.W ∧ 2 ≤ 7 ∧ 7 < s.cfg.W ∧ bfBit s.bf 2 = .unwritten ∧
      ∀ l ≤ 7, 2 < l → bfBit s.bf l = .val true := by decide
theorem witness_UnwrittenReadIsRaised_at_the_bit : (at' 8 1 {}).bf.length = (at' 8 1 {}).cfg.W ∧
    7 < (at' 8 1 {}).cfg.W ∧ bfBit (at' 8 1 {}).bf 7 = .unwritten ∧
    ∃ b, ∀ l ≤ 7, 7 < l → bfBit (at' 8 1 {}).bf l = .val b := ⟨by decide, by decide, by decide, true, by omega⟩
theorem witness_PositCommandsNeverFaultOtherwise : ∀ j < s8.bf.length, bfBit s8.bf j ≠ .unwritten := by decide
theorem witness_BfGetAnswersTheBit : 7 < s8.cfg.W ∧ bfBit s8.bf 7 = .val true := by decide
theorem witness_BfSetWritesOneBit : 7 < (at' 8 1 {}).cfg.W ∧ (at' 8 1 {}).bf.length = (at' 8 1 {}).cfg.W := by decide
/-- A run that ends at a bit that differs, above unwritten bits, and one that reaches bit 0. -/
theorem witness_BfRunCountsDownward :
    (let bf : List BfBit := [.unwritten, .val false, .val true, .val true]
     (∀ j < 2, bfBit bf (3 - j) = .val true) ∧ bfBit bf (3 - 2) = .val (!true)) ∧
    1 < s8.cfg.W ∧ (∀ j < 2, bfBit s8.bf (1 - j) = .val true) ∧ 2 = 1 + 1 := by decide
theorem witness_BfReadAnswersTheValue : 0b10110011 < 2 ^ s8.cfg.W ∧ HoldsValue s8.bf s8.cfg.W 0b10110011 := by decide
theorem witness_ReadingCommandsLeaveBf : writesBf (.pAdd true false) = false ∧ ∃ t, exec (.pAdd true false) s8 = .next t :=
  ⟨rfl, _, rfl⟩
theorem witness_RepeatingACommandChangesNothing : s8.bf.length = s8.cfg.W ∧
    (∀ n, (Instr.bfShl 0 = .bfShl n ∨ Instr.bfShl 0 = .bfShr n) → n = 0) ∧
    ∃ t, exec (.bfShl 0) s8 = .next t ∧ t.resp = some { err := false, errCode := 0, out := {} } :=
  ⟨by decide, by simp, _, rfl, rfl⟩
theorem witness_InitialisingCommandsWriteEveryBit : (at' 8 1 {}).cfg.W ≤ 8 := by decide
theorem witness_WrittenBitsStayWritten : s8.bf.length = s8.cfg.W ∧
    (∀ n, Instr.bfSet 0 true ≠ .bfShl n ∧ Instr.bfSet 0 true ≠ .bfShr n) ∧
    (∃ t, exec (.bfSet 0 true) s8 = .next t) ∧ bfBit s8.bf 7 ≠ .unwritten := ⟨by decide, by simp, ⟨_, rfl⟩, by decide⟩
/-- Two states that differ in port `a`, in the index and in the record. -/
theorem witness_CommandsSeeOnlyBfAndTheirPorts :
    let s' : State := { s8 with inp := { a := 5 }, seq := 9, faults := [{ n := 1, cmd := 0, cause := .illegalCommand }] }
    s8.cfg = s'.cfg ∧ s8.bf = s'.bf ∧ usedInputs (.pNeg true false) s8.inp = usedInputs (.pNeg true false) s'.inp ∧
      ∃ t, exec (.pNeg true false) s8 = .next t := ⟨rfl, rfl, rfl, _, rfl⟩
theorem witness_InstancesAreIndependent : (0 : Nat) ≠ 1 ∧
    ∃ sys', System.stepAt [issuing 1, issuing 2] 0 = some sys' := ⟨by decide, _, rfl⟩
/-- From port `a`, a run that ends at a bit that differs, and from BF one that fills the field. -/
theorem witness_PRegimeAnswersTheRun :
    (let s := at' 5 1 { a := 0b01101 }
     s.cfg.Legal ∧ OperandIs false s 0b01101 ∧ (∀ j < 2, (0b01101).testBit (5 - 2 - j) = (0b01101).testBit (5 - 2)) ∧
       (0b01101).testBit (5 - 2 - 2) ≠ (0b01101).testBit (5 - 2)) ∧
    (let s := State.loaded c51 0b11111
     s.cfg.Legal ∧ OperandIs true s 0b11111 ∧ (∀ j < 4, (0b11111).testBit (5 - 2 - j) = (0b11111).testBit (5 - 2)) ∧
       4 = s.cfg.W - 1) := by decide
theorem witness_RegimeRanges : 2 ≤ 2 ∧ 1 < 2 ^ (2 - 1) ∧ 15 < 2 ^ (5 - 1) := by decide
theorem witness_RegimeRunIsBfRunAfterLoad :
    let s := at' 5 1 { wd := 0b11111 }
    s.cfg.Legal ∧ s.inp.wd = 0b11111 ∧ 0b11111 < 2 ^ s.cfg.W := by decide
theorem witness_DecodeSplitsThePattern : c51.Legal ∧ 0b10011 < 2 ^ c51.W ∧ 0b10011 ≠ 0 ∧ 0b10011 ≠ 2 ^ (c51.W - 1) := by
  decide
theorem witness_PDecodeFlagsZeroAndNaR : c51.Legal ∧ OperandIs true (State.loaded c51 0) 0 ∧
    OperandIs false (at' 5 1 { a := 16 }) (2 ^ ((at' 5 1 {}).cfg.W - 1)) := by decide
theorem witness_PDecodeDrivesTheComponents : c51.Legal ∧ OperandIs true (State.loaded c51 0b10101) 0b10101 ∧
    positDecode c51 0b10101 =
      .real { s := true, k := 0, c := 2, nE := 1, e := 1, nf := 1, f := 1, T := 1 } := by decide
theorem witness_PDecodePortsCarryTheValue : c51.Legal ∧ OperandIs true (State.loaded c51 0b10101) 0b10101 ∧
    0b10101 ≠ 0 ∧ 0b10101 ≠ 2 ^ (c51.W - 1) ∧ ∃ t, exec (.pDecode true) (State.loaded c51 0b10101) = .next t :=
  ⟨by decide, by decide, by decide, by decide, _, rfl⟩
theorem witness_PredicatesTestTheOnePattern : OperandIs false (at' 5 1 { a := 16 }) 16 ∧ OperandIs true s8 0b10110011 := by
  decide
/-- MAXPOS and MINPOS, where the bounds are taken. -/
theorem witness_ScaleRange : c51.Legal ∧ 15 < 2 ^ c51.W ∧
    positDecode c51 15 = .real { s := false, k := 3, c := 4, nE := 0, e := 0, nf := 0, f := 0, T := 6 } ∧
    positDecode c51 1 = .real { s := false, k := -3, c := 4, nE := 0, e := 0, nf := 0, f := 0, T := -6 } := by decide
theorem witness_DecodeIsSignSymmetric : c51.Legal ∧ 0b00101 < 2 ^ c51.W ∧
    positDecode c51 0b00101 = .real { s := false, k := -1, c := 2, nE := 1, e := 0, nf := 1, f := 1, T := -2 } := by decide
theorem witness_EncodeOfDecodeIsThePattern : c51.Legal ∧ positDecode c51 0 = .zero ∧ positDecode c51 16 = .nar ∧
    31 < 2 ^ c51.W := by decide
theorem witness_EncodeOfFlaggedInputs :
    ({ nar := true, zero := true, s := false, T := 0, L := 0, F := 0 } : EncInput).nar = true ∧
    ({ zero := true, s := true, T := 5, L := 1, F := 1 } : EncInput).nar = false := by decide
/-- The first k past each end at E = 1: T = 8 has k = 4 > 3, T = -7 has k = -4 < -3. -/
theorem witness_EncodeSaturatesAtBothEnds : c51.Legal ∧ (c51.W : Int) - 2 < 8 / 2 ^ c51.E ∧
    (-7 : Int) / 2 ^ c51.E < -((c51.W : Int) - 2) := by decide
theorem witness_EncodeOfARealIsAReal : c51.Legal ∧ 0b1111 < 2 ^ 4 := by decide
/-- k at both bounds and at the two sides of 0. -/
theorem witness_EncodeRoundsToNearestEven : c51.Legal ∧ 1 < 2 ^ 1 ∧ 1 < 2 ^ c51.E ∧
    ∀ k ∈ [(-3 : Int), -1, 0, 3], -((c51.W : Int) - 2) ≤ k ∧ k ≤ (c51.W : Int) - 2 := by decide
/-- 3/2 with one fraction bit and with three. -/
theorem witness_OneRealHasOnePattern : c51.Legal ∧ 1 < 2 ^ 1 ∧ 4 < 2 ^ 3 ∧
    (2 : ℚ) ^ (0 : Int) * (1 + (1 : Nat) / 2 ^ 1) = 2 ^ (0 : Int) * (1 + (4 : Nat) / 2 ^ 3) := by
  refine ⟨by decide, by decide, by decide, by norm_num⟩
theorem witness_StickyStandsForEveryTail : c51.Legal ∧ c51.FB_MAX + 1 ≤ 2 ∧ 3 < 2 ^ 2 ∧ 0 < 1 ∧ 1 < 2 ^ 1 := by decide
/-- k = 0, e = 1 at W = 5, E = 1: regime and exponent take 3 of the 4 kept bits. -/
theorem witness_EncodeIsNearestWhenTheCutIsInTheFraction : c51.Legal ∧ 3 < 2 ^ 2 ∧ 1 < 2 ^ c51.E ∧
    -((c51.W : Int) - 2) ≤ 0 ∧ (0 : Int) ≤ (c51.W : Int) - 2 ∧
    (if (0 : Int) ≤ 0 then (0 : Int).toNat + 2 else (-0 : Int).toNat + 1) + c51.E ≤ c51.W - 1 := by decide
theorem witness_PNormInstallsTheHiddenBit : (mw8 0b10110000).cfg.Legal := by decide
/-- Both clauses at the boundary shift. -/
theorem witness_PDenormShiftsRight : (mw8 0).cfg.MW - 1 ≤ 7 ∧ 6 < (mw8 0).cfg.MW - 1 := by decide
theorem witness_DenormOfNormPlacesTheHiddenBit : 2 ≤ 8 ∧ 6 ≤ 8 - 2 := by decide
theorem witness_PNegAnswersTheTwosComplement : s8.cfg.Legal ∧ OperandIs true s8 0b10110011 ∧
    OperandIs false (at' 8 1 { a := 0x80 }) 0x80 := by decide
theorem witness_NegationIsExact : c51.Legal ∧ 0b10001 < 2 ^ c51.W ∧
    value c51 0b10001 = some (-64) := by refine ⟨by decide, by decide, ?_⟩; decide +kernel
theorem witness_PAddAndPSubAnswerTheSum : s8.cfg.Legal ∧ OperandIs true s8 0b10110011 := by decide
theorem witness_AddOfSpecialOperands : c51.Legal ∧ c51.NAR < 2 ^ c51.W ∧ 0b10001 ≠ c51.NAR := by decide
/-- 3/8 and -2 (95_test_vectors.md §V3.8: S = 13312, q = 13, Tr = 0): -2 has the scale that is not smaller. -/
theorem witness_AddAlignsCombinesAndEncodes : c51.Legal ∧
    positDecode c51 0b10110 = .real { s := true, k := 0, c := 2, nE := 1, e := 1, nf := 1, f := 0, T := 1 } ∧
    positDecode c51 0b00101 = .real { s := false, k := -1, c := 2, nE := 1, e := 0, nf := 1, f := 1, T := -2 } ∧
    16384 - 24576 / 2 ^ 3 = 13312 ∧ 2 ^ 13 ≤ 13312 ∧ 13312 < 2 ^ (13 + 1) := by decide
/-- The exact zero: 8 and -8. -/
theorem witness_AddAlignsCombinesAndEncodes_zero : c51.Legal ∧
    positDecode c51 0b01101 = .real { s := false, k := 1, c := 3, nE := 1, e := 1, nf := 0, f := 0, T := 3 } ∧
    positDecode c51 0b10011 = .real { s := true, k := 1, c := 3, nE := 1, e := 1, nf := 0, f := 0, T := 3 } := by decide
theorem witness_AddIsCorrectlyRounded : c51.Legal ∧ c51.MW_EXACT ≤ c51.MW ∧ value c51 0b01011 = some 3 ∧
    value c51 0b10111 = some (-3 / 2) ∧ (3 : ℚ) + -3 / 2 = (if false then -1 else 1) * 2 ^ (0 : Int) * (1 + (1 : Nat) / 2 ^ 1) ∧
    1 < 2 ^ 1 := by
  refine ⟨by decide, by decide, ?_, ?_, by norm_num, by decide⟩ <;> decide +kernel
theorem witness_AdditionLaws : c51.Legal ∧ 0b10001 < 2 ^ c51.W ∧ 0b10001 ≠ c51.NAR := by decide
theorem witness_SubtractionLaws : c51.Legal ∧ 0b10001 < 2 ^ c51.W ∧ value c51 0b10001 = some (-64) := by
  refine ⟨by decide, by decide, ?_⟩; decide +kernel

end Sys2Proof.Tests
end

/-! The opcode table of 30_encoding.md R85 against the decoder of R86 and R87. Both are compared through the six fields
of R81: a word is its fields, and the mask of a row keeps the fields that its command does not leave free. -/

namespace Sys2Proof.Proofs

open Sys2Proof.Machine Sys2Proof.Laws

/-! Words and their fields. -/

/-- A one-bit field is known by whether it is 1. -/
theorem bitsAt_one_inj {a b lo : Nat} (h : (bitsAt a lo 1 == 1) = (bitsAt b lo 1 == 1)) :
    bitsAt a lo 1 = bitsAt b lo 1 := by
  have ha := bitsAt_lt a lo 1
  have hb := bitsAt_lt b lo 1
  rw [beq_eq_beq] at h
  omega

/-- A command word is its six fields (R81): they cover the 32 bits. -/
theorem word_eq_iff_fields {w x : CmdWord} : w = x ↔ opField w = opField x ∧ vField w = vField x ∧
    rsField w = rsField x ∧ rdField w = rdField x ∧ reservedField w = reservedField x ∧ idxField w = idxField x := by
  refine ⟨by rintro rfl; simp, fun ⟨hop, hv, hrs, hrd, hres, hidx⟩ => BitVec.eq_of_toNat_eq ?_⟩
  replace hv := bitsAt_one_inj hv
  replace hrs := bitsAt_one_inj hrs
  replace hrd := bitsAt_one_inj hrd
  simp only [opField, reservedField, idxField, bitsAt] at hop hv hrs hrd hres hidx
  have hw := w.isLt
  have hx := x.isLt
  omega

theorem bitsAt_and (a b lo n : Nat) : bitsAt (a &&& b) lo n = bitsAt a lo n &&& bitsAt b lo n := by
  refine Nat.eq_of_testBit_eq fun j => ?_
  simp only [testBit_bitsAt, Nat.testBit_and]
  cases decide (j < n) <;> simp

/-- A one-bit field is a bit of the word. -/
theorem bitsAt_one_beq (v lo : Nat) : (bitsAt v lo 1 == 1) = v.testBit lo := by
  simp [bitsAt, Nat.testBit_eq_decide_div_mod_eq, Bool.beq_eq_decide_eq]

@[simp] theorem opField_and (w m : CmdWord) : opField (w &&& m) = opField w &&& opField m := bitsAt_and ..
@[simp] theorem reservedField_and (w m : CmdWord) : reservedField (w &&& m) = reservedField w &&& reservedField m :=
  bitsAt_and ..
@[simp] theorem idxField_and (w m : CmdWord) : idxField (w &&& m) = idxField w &&& idxField m := bitsAt_and ..
@[simp] theorem vField_and (w m : CmdWord) : vField (w &&& m) = (vField w && vField m) := by
  simp [vField, bitsAt_one_beq]
@[simp] theorem rsField_and (w m : CmdWord) : rsField (w &&& m) = (rsField w && rsField m) := by
  simp [rsField, bitsAt_one_beq]
@[simp] theorem rdField_and (w m : CmdWord) : rdField (w &&& m) = (rdField w && rdField m) := by
  simp [rdField, bitsAt_one_beq]

@[simp] theorem opField_and_ones (w : CmdWord) : opField w &&& 31 = opField w := by
  rw [Nat.and_two_pow_sub_one_eq_mod _ 5]; exact Nat.mod_eq_of_lt (bitsAt_lt ..)
@[simp] theorem reservedField_and_ones (w : CmdWord) : reservedField w &&& 255 = reservedField w := by
  rw [Nat.and_two_pow_sub_one_eq_mod _ 8]; exact Nat.mod_eq_of_lt (bitsAt_lt ..)
@[simp] theorem idxField_and_ones (w : CmdWord) : idxField w &&& 65535 = idxField w := by
  rw [Nat.and_two_pow_sub_one_eq_mod _ 16]; exact Nat.mod_eq_of_lt (bitsAt_lt ..)

/-! The mask of a row. -/

/-- R85's mask of a command with these free fields: OP, the reserved bits and every field that is not free. -/
def maskOf (f : FreeFields) : CmdWord :=
  wordOf 31 (!f.v) (!f.rs) (!f.rd) (if f.idx then 0 else 65535) ||| 0x0000FF00#32

theorem maskOf_fields (f : FreeFields) : opField (maskOf f) = 31 ∧ vField (maskOf f) = !f.v ∧
    rsField (maskOf f) = !f.rs ∧ rdField (maskOf f) = !f.rd ∧ reservedField (maskOf f) = 255 ∧
    idxField (maskOf f) = if f.idx then 0 else 65535 := by
  have h : ∀ v rs rd idx : Bool, let m := maskOf ⟨v, rs, rd, idx⟩
      opField m = 31 ∧ vField m = !v ∧ rsField m = !rs ∧ rdField m = !rd ∧ reservedField m = 255 ∧
        idxField m = if idx then 0 else 65535 := by decide
  exact h f.v f.rs f.rd f.idx

theorem misusedField_eq_none_iff (f : FreeFields) (w : CmdWord) : misusedField f w = none ↔
    reservedField w = 0 ∧ (f.v = false → vField w = false) ∧ (f.rs = false → rsField w = false) ∧
      (f.rd = false → rdField w = false) ∧ (f.idx = false → idxField w = 0) := by
  simp [misusedField, ite_eq_iff]

/-- The masked word is the bare opcode exactly when the word has that opcode and misuses no field. -/
theorem and_maskOf_eq_iff (w : CmdWord) (f : FreeFields) {op : Nat} (hop : op < 32) :
    w &&& maskOf f = wordOf op false false false 0 ↔ opField w = op ∧ misusedField f w = none := by
  obtain ⟨mop, mv, mrs, mrd, mres, midx⟩ := maskOf_fields f
  obtain ⟨xop, xv, xrs, xrd, xres, xidx⟩ := wordOf_fields false false false hop (by decide : 0 < 65536)
  have hidx : idxField w &&& (if f.idx then 0 else 65535) = 0 ↔ (f.idx = false → idxField w = 0) := by
    cases f.idx <;> simp
  have hbit (b x : Bool) : (x && !b) = false ↔ (b = false → x = false) := by cases b <;> simp
  rw [word_eq_iff_fields, misusedField_eq_none_iff]
  simp only [opField_and, vField_and, rsField_and, rdField_and, reservedField_and, idxField_and, mop, mv, mrs, mrd,
    mres, midx, xop, xv, xrs, xrd, xres, xidx, opField_and_ones, reservedField_and_ones, hidx, hbit]
  tauto

/-! The decoder. -/

/-- The opcodes with free fields are the opcodes that select a command. -/
theorem selected_isSome (op : Nat) (v rs rd : Bool) (idx : Nat) :
    (selected op v rs rd idx).isSome = (freeFields op).isSome := by
  unfold selected freeFields
  split <;> rfl

theorem op_of_selected {op : Nat} {v rs rd : Bool} {idx : Nat} {i : Instr}
    (h : selected op v rs rd idx = some i) : i.op = op := by
  unfold selected at h
  split at h <;> cases h <;> rfl

/-- Everything the decoder accepts (R85, R86). -/
theorem decode_eq_ok_iff {w : CmdWord} {i : Instr} : decode w = .ok i ↔
    ∃ f, freeFields (opField w) = some f ∧ misusedField f w = none ∧
      selected (opField w) (vField w) (rsField w) (rdField w) (idxField w) = some i := by
  unfold decode
  split
  · rename_i f j hf hj
    split <;> simp_all
  · rename_i hnone
    simp only [reduceCtorEq, false_iff]
    rintro ⟨f, hf, -, hi⟩
    exact hnone f i hf hi

/-- The decoder accepts a word with an opcode of the table and no misused field, as a command of that opcode. -/
theorem exists_decode_op_iff {w : CmdWord} {f : FreeFields} {op : Nat} (hf : freeFields op = some f) :
    (∃ i, decode w = .ok i ∧ i.op = op) ↔ opField w = op ∧ misusedField f w = none := by
  constructor
  · rintro ⟨i, hd, hi⟩
    obtain ⟨g, hg, hm, hs⟩ := decode_eq_ok_iff.1 hd
    obtain rfl : opField w = op := (op_of_selected hs).symm.trans hi
    obtain rfl : g = f := Option.some.inj (hg.symm.trans hf)
    exact ⟨rfl, hm⟩
  · rintro ⟨rfl, hm⟩
    obtain ⟨i, hs⟩ := Option.isSome_iff_exists.1
      ((selected_isSome (opField w) (vField w) (rsField w) (rdField w) (idxField w)).trans (hf ▸ rfl))
    exact ⟨i, decode_eq_ok_iff.2 ⟨f, hf, hm, hs⟩, op_of_selected hs⟩

/-! The rows. -/

/-- Every row is the mask of its opcode's free fields and the bare opcode. -/
theorem row_mask_value {row : OpRow} (h : row ∈ opcodeTable) : opField row.value < 32 ∧
    (∃ f, freeFields (opField row.value) = some f ∧ maskOf f = row.mask) ∧
    row.value = wordOf (opField row.value) false false false 0 := by
  have hmask : ∀ row ∈ opcodeTable, (freeFields (opField row.value)).map maskOf = some row.mask := by decide
  have hvalue : ∀ row ∈ opcodeTable, row.value = wordOf (opField row.value) false false false 0 := by decide
  exact ⟨bitsAt_lt .., Option.map_eq_some_iff.1 (hmask row h), hvalue row h⟩

/-- Every command has a row, with its mnemonic and its opcode. -/
theorem exists_row (i : Instr) : ∃ row ∈ opcodeTable, row.mnemonic = i.mnemonic ∧ opField row.value = i.op := by
  cases i <;> simp only [Instr.mnemonic, Instr.op] <;> decide

/-- No two rows share a mnemonic and no two share an opcode. -/
theorem mnemonic_eq_iff_op_eq : ∀ row ∈ opcodeTable, ∀ row' ∈ opcodeTable,
    row.mnemonic = row'.mnemonic ↔ opField row.value = opField row'.value := by decide

theorem mnemonic_eq_iff {row : OpRow} (h : row ∈ opcodeTable) (i : Instr) :
    i.mnemonic = row.mnemonic ↔ i.op = opField row.value := by
  obtain ⟨row', h', hname, hop⟩ := exists_row i
  rw [← hname, ← hop, mnemonic_eq_iff_op_eq row' h' row h]

/-- Settles O2, field by field: a row's mask keeps what its command does not leave free, so the masked word is the
row's match exactly when the decoder finds the row's opcode and no misused field. -/
theorem decodeAgreesWithOpcodeTable : Obligations.DecodeAgreesWithOpcodeTable := by
  intro w row hrow
  obtain ⟨hop, ⟨f, hf, hmask⟩, hvalue⟩ := row_mask_value hrow
  calc w &&& row.mask = row.value
      ↔ w &&& maskOf f = wordOf (opField row.value) false false false 0 := by rw [hmask, ← hvalue]
    _ ↔ opField w = opField row.value ∧ misusedField f w = none := and_maskOf_eq_iff w f hop
    _ ↔ ∃ i, decode w = .ok i ∧ i.op = opField row.value := (exists_decode_op_iff hf).symm
    _ ↔ ∃ i, decode w = .ok i ∧ i.mnemonic = row.mnemonic := by simp only [mnemonic_eq_iff hrow]

end Sys2Proof.Proofs

/-! The words that select no command (30_encoding.md R86, 60_exceptions.md R233). -/

namespace Sys2Proof.Proofs

open Sys2Proof.Machine

/-- A word that the decoder accepts matches a row of the table. -/
theorem exists_row_of_decode_ok {w : CmdWord} {i : Instr} (h : decode w = .ok i) :
    ∃ row ∈ opcodeTable, w &&& row.mask = row.value := by
  obtain ⟨row, hrow, hname, -⟩ := exists_row i
  exact ⟨row, hrow, (decodeAgreesWithOpcodeTable w row hrow).2 ⟨i, h, hname.symm⟩⟩

/-- The step on an issued word that the decoder rejects, under whatever name. -/
theorem step_of_decode_error {s : State} {w : CmdWord} {p : Inputs} {rest : List HostMove} {r : Reject}
    (hL : s.cfg.Legal) (hp : s.pending = .issue w p :: rest) (hd : decode w = .error r) :
    step s = .next (s.present w p rest).rejectWord := by
  simp only [step, if_pos hL, hp, hd]

/-- Settles O6: by O2 a word that matches no row is no command, so the step rejects it. -/
theorem unmatchedWordRaisesIllegalCommand : Obligations.UnmatchedWordRaisesIllegalCommand := by
  intro s w p rest hL hp hno
  cases hd : decode w with
  | ok i =>
    obtain ⟨row, hrow, hsel⟩ := exists_row_of_decode_ok hd
    exact absurd hsel (hno row hrow)
  | error r => exact step_of_decode_error hL hp hd

end Sys2Proof.Proofs

/-! The commands of `bitfield_register` that write BF whole or check an index (40_bitfield_register.md R101 to R110,
60_exceptions.md R235). -/

namespace Sys2Proof.Proofs

open Sys2Proof.Machine

/-! What the commands are. -/

theorem exec_bfReset (s : State) : exec .bfReset s = .next ((s.withBf (bfZero s.cfg.W)).complete {}) := rfl
theorem exec_bfShl (n : Nat) (s : State) :
    exec (.bfShl n) s = .next ((s.withBf (bfShiftLeft s.cfg.W s.bf n)).complete {}) := rfl
theorem exec_bfShr (n : Nat) (s : State) :
    exec (.bfShr n) s = .next ((s.withBf (bfShiftRight s.cfg.W s.bf n)).complete {}) := rfl
theorem exec_bfLoad (s : State) : exec .bfLoad s = .next ((s.withBf (bfOfNat s.cfg.W (portWd s))).complete {}) := rfl
theorem exec_pDenorm (n : Nat) (s : State) :
    exec (.pDenorm n) s = .next (s.complete { rn := some (denormalize (portN s) n s.cfg.MW) }) := rfl

/-- A command that checks its index raises IndexOutOfRange at one that is not below W, whatever it would do next. -/
theorem exec_of_checkedIndex_le {i : Instr} {n : Nat} {s : State} (hi : checkedIndex i = some n) (hn : s.cfg.W ≤ n) :
    exec i s = .next (s.raise .indexOutOfRange) := by
  cases i with
  | bfGet m | bfSet m v | bfRun m =>
    obtain rfl : m = n := Option.some.inj hi
    exact congrArg Host.Outcome.next (checkIndex_of_le hn)
  | _ => cases hi

/-! What BF holds after the whole-register writes. -/

theorem holdsValue_bfZero (w : Nat) : HoldsValue (bfZero w) w 0 :=
  ⟨bfZero_length w, fun j hj => by rw [bfBit_bfZero hj, Nat.zero_testBit]⟩

/-- The wires of port `wd` are the low W bits of what the host put there. -/
theorem testBit_portWd {s : State} {j : Nat} (hj : j < s.cfg.W) : (portWd s).testBit j = s.inp.wd.testBit j := by
  simp [portWd, testBit_bitsAt, hj]

theorem holdsValue_bfOfNat_portWd (s : State) : HoldsValue (bfOfNat s.cfg.W (portWd s)) s.cfg.W s.inp.wd :=
  ⟨bfOfNat_length _ _, fun j hj => by rw [bfBit_bfOfNat _ hj, testBit_portWd hj]⟩

/-! The obligations. -/

/-- Settles O21: the bit that BF_SHR leaves in place j is in reach of the shift exactly when j + n is at most W - 1. -/
theorem bfShrMovesBitsDown : Obligations.BfShrMovesBitsDown := by
  intro n s
  refine ⟨bfShiftRight s.cfg.W s.bf n, exec_bfShr n s, bfShiftRight_length _ _ _, fun j hj => ?_⟩
  have hreach : j + n < s.cfg.W ↔ j + n ≤ s.cfg.W - 1 := by omega
  simp only [bfBit_bfShiftRight _ _ hj, hreach]

/-- Settles O14: the index check comes before the command's own effect, and the commands with an amount have none. -/
theorem indexOutOfRangeIsRaised : Obligations.IndexOutOfRangeIsRaised := by
  intro n v s
  constructor
  · intro hn i hi
    have hchecked : checkedIndex i = some n := by
      simp only [List.mem_cons, List.not_mem_nil, or_false] at hi
      obtain rfl | rfl | rfl := hi <;> rfl
    exact exec_of_checkedIndex_le hchecked hn
  · intro i hi
    simp only [List.mem_cons, List.not_mem_nil, or_false] at hi
    obtain rfl | rfl | rfl := hi
    · exact ⟨_, _, exec_bfShl n s⟩
    · exact ⟨_, _, exec_bfShr n s⟩
    · exact ⟨_, _, exec_pDenorm n s⟩

/-- Settles O17: BF is replaced by W written zeros. -/
theorem bfResetWritesZeros : Obligations.BfResetWritesZeros :=
  fun s => ⟨bfZero s.cfg.W, holdsValue_bfZero _, exec_bfReset s⟩

/-- Settles O20, bit by bit. -/
theorem bfShlMovesBitsUp : Obligations.BfShlMovesBitsUp :=
  fun n s => ⟨bfShiftLeft s.cfg.W s.bf n, exec_bfShl n s, bfShiftLeft_length _ _ _, fun _ => bfBit_bfShiftLeft _ n⟩

/-- Settles O23: BF is replaced by the W wires of `wd`, each bit written. -/
theorem bfLoadWritesThePort : Obligations.BfLoadWritesThePort :=
  fun s => ⟨bfOfNat s.cfg.W (portWd s), holdsValue_bfOfNat_portWd s, exec_bfLoad s⟩

end Sys2Proof.Proofs

/-! The regime unit on its own (41_regime_decoder.md R130, R131, R133). -/

namespace Sys2Proof.Proofs

open Sys2Proof.Machine

/-- What P_REGIME does with an operand that it can read. -/
theorem exec_pRegime_of_operandIs {rs : Bool} {s : State} {A : Bits} (h : OperandIs rs s A) :
    exec (.pRegime rs) s = .next (s.complete
      { k := some (signedBits s.cfg.KW (regime s.cfg.W (bitsAt A 0 (s.cfg.W - 1))).1)
        cnt := some (consumed s.cfg.W (regime s.cfg.W (bitsAt A 0 (s.cfg.W - 1))).2) }) := by
  simp only [exec, execPRegime, operandA_of_operandIs h, orUnwritten_some]

/-- The regime of the field `A[W-2:0]`, whose run of its first bit has length m: bit W-1 of A is not in the field. -/
theorem regime_field_eq {w A m : Nat} (hw : 2 ≤ w) (hm : m ≤ w - 1)
    (run : ∀ j < m, A.testBit (w - 2 - j) = A.testBit (w - 2))
    (stop : m = w - 1 ∨ A.testBit (w - 2 - m) ≠ A.testBit (w - 2)) :
    regime w (bitsAt A 0 (w - 1)) = (if A.testBit (w - 2) then (m : Int) - 1 else -(m : Int), m) := by
  have field : ∀ l < w - 1, (bitsAt A 0 (w - 1)).testBit l = A.testBit l := fun l hl => by
    simp [testBit_bitsAt, hl]
  have len : runLength (bitsAt A 0 (w - 1)) (A.testBit (w - 2)) (w - 1) = m :=
    (runLength_congr field).trans (runLength_eq hm run stop)
  simp only [regime, field (w - 2) (by omega), len]

/-- KW bits hold the k of every field (41_regime_decoder.md R132). -/
theorem sext_signedBits_regime {c : Config} (hw : 2 ≤ c.W) (f : Bits) :
    sext c.KW (signedBits c.KW (regime c.W f).1) = (regime c.W f).1 := by
  obtain ⟨lo, hi⟩ := regime_k_range (f := f) hw
  have hW : (c.W : Int) ≤ 2 ^ (c.KW - 1) := by exact_mod_cast le_two_pow_clog2 c.W
  exact sext_signedBits (Nat.le_add_left 1 _) (by omega) (by omega)

/-- Settles O31: the field's run has the length m that the operand's bits W-2 down show, and KW bits hold its k. -/
theorem pRegimeAnswersTheRun : Obligations.PRegimeAnswersTheRun := by
  intro rs s A m hL hA _ hm run stop
  have hreg := regime_field_eq hL.1 hm run stop
  have hexec := exec_pRegime_of_operandIs hA
  have hk := sext_signedBits_regime hL.1 (bitsAt A 0 (s.cfg.W - 1))
  rw [hreg] at hexec hk
  exact ⟨_, hexec, signedBits_lt _ _, hk⟩

end Sys2Proof.Proofs

/-! The value decoder on the two patterns that are no real (42_value_decoder.md R141, R154). -/

namespace Sys2Proof.Proofs

open Sys2Proof.Machine

/-- What P_DECODE does with an operand that it can read. -/
theorem exec_pDecode_of_operandIs {rs : Bool} {s : State} {A : Bits} (h : OperandIs rs s A) :
    exec (.pDecode rs) s = .next (s.complete { dec := some (decPorts s.cfg (positDecode s.cfg A)) }) := by
  simp only [exec, execPDecode, operandA_of_operandIs h, orUnwritten_some]

@[simp] theorem positDecode_zero (c : Config) : positDecode c 0 = .zero := rfl

/-- NaR is not taken for zero, which the decoder tests first: one bit of NaR is set. -/
@[simp] theorem positDecode_NAR (c : Config) : positDecode c c.NAR = .nar := by
  have hne : c.NAR ≠ 0 := (Nat.two_pow_pos (c.W - 1)).ne'
  simp [positDecode, isZero, isNaR, hne]

/-- Settles O35: the decoder answers its flag alone for each of the two patterns. -/
theorem pDecodeFlagsZeroAndNaR : Obligations.PDecodeFlagsZeroAndNaR := by
  refine fun rs s _ => ⟨fun hzero => ?_, fun hnar => ?_⟩
  · rw [exec_pDecode_of_operandIs hzero, positDecode_zero]
    rfl
  · rw [exec_pDecode_of_operandIs hnar, ← Config.NAR, positDecode_NAR]
    rfl

end Sys2Proof.Proofs

/-! The value encoder (43_value_encoder.md R161 to R168). -/

namespace Sys2Proof.Proofs

open Sys2Proof.Machine

/-! The flags and the sign (R161, R167). -/

theorem positEncode_of_nar {c : Config} {u : EncInput} (h : u.nar = true) : positEncode c u = c.NAR := if_pos h

theorem positEncode_of_zero {c : Config} {u : EncInput} (hnar : u.nar = false) (h : u.zero = true) :
    positEncode c u = 0 := by
  simp [positEncode, hnar, h]

/-- With neither flag set the result is the magnitude field with its sign. -/
theorem positEncode_of_no_flag (c : Config) (s : Bool) (T : Int) (L F : Nat) (st : Bool) :
    positEncode c { s := s, T := T, L := L, F := F, sticky := st } = applySign c s (encMagnitude c T L F st) := rfl

/-- Setting the sign bit and complementing the W - 1 bits of a nonzero field is negation modulo `2^W`. -/
theorem applySign_eq {c : Config} {P : Nat} (hw : 1 ≤ c.W) (s : Bool) (hpos : 0 < P) (hle : P ≤ 2 ^ (c.W - 1)) :
    applySign c s P = if s then 2 ^ c.W - P else P := by
  have hneg : 2 ^ (c.W - 1) + (2 ^ (c.W - 1) - P) = 2 ^ c.W - P := by
    rw [← Nat.two_pow_pred_mul_two hw]
    omega
  rw [applySign, tc_pos hpos]
  exact if_congr Iff.rfl hneg rfl

/-! The bounds of k (R162, R163). -/

theorem encK_mul_add (c : Config) (k : Int) {e : Nat} (he : e < 2 ^ c.E) : encK c (k * 2 ^ c.E + e) = k := by
  have he' : (e : Int) < 2 ^ c.E := by exact_mod_cast he
  rw [encK, add_comm, Int.add_mul_ediv_right _ _ (by positivity), Int.ediv_eq_zero_of_lt (Int.natCast_nonneg e) he',
    zero_add]

theorem encE_mul_add (c : Config) (k : Int) {e : Nat} (he : e < 2 ^ c.E) : encE c (k * 2 ^ c.E + e) = e := by
  have he' : (e : Int) < 2 ^ c.E := by exact_mod_cast he
  rw [encE, add_comm, Int.add_mul_emod_self_right, Int.emod_eq_of_lt (Int.natCast_nonneg e) he', Int.toNat_natCast]

theorem KMAX_cast {c : Config} (hw : 2 ≤ c.W) : (c.KMAX : Int) = c.W - 2 := by simp [Config.KMAX, hw]

theorem encMagnitude_of_KMAX_lt {c : Config} {T : Int} (L F : Nat) (st : Bool) (h : (c.KMAX : Int) < encK c T) :
    encMagnitude c T L F st = ones (c.W - 1) := if_pos h

theorem encMagnitude_of_lt_neg_KMAX {c : Config} {T : Int} (L F : Nat) (st : Bool) (h : encK c T < -(c.KMAX : Int)) :
    encMagnitude c T L F st = 1 :=
  (if_neg (by omega)).trans (if_pos h)

theorem encMagnitude_of_between {c : Config} {k : Int} {e : Nat} (L F : Nat) (st : Bool) (he : e < 2 ^ c.E)
    (hlo : -(c.KMAX : Int) ≤ k) (hhi : k ≤ c.KMAX) :
    encMagnitude c (k * 2 ^ c.E + e) L F st = roundString c k e L F st := by
  simp [encMagnitude, encK_mul_add c k he, encE_mul_add c k he, hlo.not_gt, hhi.not_gt]

/-! The regime code (R164). -/

theorem regime_of_nonneg {k : Int} (h : 0 ≤ k) :
    regimeCode k = 2 ^ (k.toNat + 2) - 2 ∧ regimeLen k = k.toNat + 2 := by
  simp only [regimeCode, regimeLen, if_pos h, ones, and_true]
  rw [pow_succ' 2 (k.toNat + 1)]
  omega

theorem regime_of_neg {k : Int} (h : k < 0) : regimeCode k = 1 ∧ regimeLen k = (-k).toNat + 1 := by
  simp [regimeCode, regimeLen, h.not_ge]

theorem regimeCode_lt (k : Int) : regimeCode k < 2 ^ regimeLen k := by
  rcases lt_or_ge k 0 with h | h
  · obtain ⟨hcode, hlen⟩ := regime_of_neg h
    rw [hcode, hlen]
    exact Nat.one_lt_two_pow (Nat.succ_ne_zero _)
  · obtain ⟨hcode, hlen⟩ := regime_of_nonneg h
    have := Nat.two_pow_pos (k.toNat + 2)
    rw [hcode, hlen]
    omega

/-- A k that is not below -KMAX has a 1 among the first W - 1 bits of its regime code. -/
theorem two_pow_regimeLen_le {w : Nat} {k : Int} (hw : 2 ≤ w) (hk : -((w : Int) - 2) ≤ k) :
    2 ^ regimeLen k ≤ regimeCode k * 2 ^ (w - 1) := by
  rcases lt_or_ge k 0 with h | h
  · obtain ⟨hcode, hlen⟩ := regime_of_neg h
    rw [hcode, hlen, one_mul]
    exact Nat.pow_le_pow_right two_pos (by omega)
  · obtain ⟨hcode, hlen⟩ := regime_of_nonneg h
    have htwo : 2 ^ 1 ≤ 2 ^ (w - 1) := Nat.pow_le_pow_right two_pos (by omega)
    have hhalf : 2 ^ regimeLen k ≤ regimeCode k * 2 ^ 1 := by
      have := Nat.pow_le_pow_right two_pos (Nat.le_add_left 2 k.toNat)
      rw [hcode, hlen]
      omega
    exact hhalf.trans (Nat.mul_le_mul_left _ htwo)

/-! The bit string and its first W - 1 bits (R164, R166). -/

theorem mul_two_pow_add_lt {a b m n : Nat} (ha : a < 2 ^ m) (hb : b < 2 ^ n) : a * 2 ^ n + b < 2 ^ (m + n) := by
  rw [pow_add, mul_comm a]
  exact Nat.mul_add_lt_mul_of_lt_of_lt ha hb

theorem bitString_lt {c : Config} (k : Int) {e L F : Nat} (hw : 1 ≤ c.W) (he : e < 2 ^ c.E) (hF : F < 2 ^ L) :
    bitString c k e L F < 2 ^ (stringLen c k L + 1) * 2 ^ (c.W - 1) := by
  have hB : (regimeCode k * 2 ^ c.E + e) * 2 ^ L + F < 2 ^ stringLen c k L :=
    mul_two_pow_add_lt (mul_two_pow_add_lt (regimeCode_lt k) he) hF
  rw [← pow_add, add_assoc, Nat.add_sub_cancel' hw, pow_add]
  exact Nat.mul_lt_mul_of_pos_right hB (Nat.two_pow_pos _)

theorem two_pow_le_bitString {c : Config} {k : Int} (e L F : Nat) (hw : 2 ≤ c.W) (hk : -((c.W : Int) - 2) ≤ k) :
    2 ^ (stringLen c k L + 1) ≤ bitString c k e L F := by
  calc 2 ^ (stringLen c k L + 1)
      = 2 ^ regimeLen k * 2 ^ (c.E + L + 1) := by rw [← pow_add, stringLen]; ring_nf
    _ ≤ regimeCode k * 2 ^ (c.W - 1) * 2 ^ (c.E + L + 1) := Nat.mul_le_mul_right _ (two_pow_regimeLen_le hw hk)
    _ = regimeCode k * 2 ^ c.E * 2 ^ L * 2 ^ (c.W - 1 + 1) := by ring
    _ = regimeCode k * 2 ^ c.E * 2 ^ L * 2 ^ c.W := by rw [Nat.sub_add_cancel (by omega)]
    _ ≤ bitString c k e L F :=
      Nat.mul_le_mul_right _ (Nat.le_add_right_of_le (Nat.mul_le_mul_right _ (Nat.le_add_right _ _)))

/-! Rounding (R165). -/

/-- The discarded bits begin with a 1 exactly when they are at least half of a last place, and are exactly half when no
later bit is set. -/
theorem roundBit_iff (b n : Nat) (st : Bool) :
    (b.testBit n && (bitsAt b 0 n != 0 || st || (b / 2 ^ (n + 1)).testBit 0)) = true ↔
      2 ^ n < b % 2 ^ (n + 1) ∨ (b % 2 ^ (n + 1) = 2 ^ n ∧ (st = true ∨ b / 2 ^ (n + 1) % 2 = 1)) := by
  have hlow : b % 2 ^ n < 2 ^ n := Nat.mod_lt _ (Nat.two_pow_pos n)
  rw [Nat.mod_pow_succ, bitsAt_zero, Nat.testBit_eq_decide_div_mod_eq]
  rcases Nat.mod_two_eq_zero_or_one (b / 2 ^ n) with hround | hround
  · simp [hround, hlow.ne, hlow.le]
  · rcases Nat.eq_zero_or_pos (b % 2 ^ n) with hlater | hlater
    · simp [hround, hlater]
    · simp [hround, hlater, hlater.ne']

theorem roundString_eq (c : Config) (k : Int) (e L F : Nat) (st : Bool) :
    let B := bitString c k e L F
    let drop := stringLen c k L + 1
    let kept := B / 2 ^ drop
    let cut := B % 2 ^ drop
    let half := 2 ^ (drop - 1)
    roundString c k e L F st =
      if half < cut ∨ (cut = half ∧ (st = true ∨ kept % 2 = 1)) then kept + 1 else kept :=
  if_congr (roundBit_iff _ _ st) rfl rfl

/-- The rounded field is not 0, and its increment reaches at most `2^(W-1)`. -/
theorem roundString_range {c : Config} {k : Int} {e L F : Nat} (st : Bool) (hw : 2 ≤ c.W) (he : e < 2 ^ c.E)
    (hF : F < 2 ^ L) (hk : -((c.W : Int) - 2) ≤ k) :
    0 < roundString c k e L F st ∧ roundString c k e L F st ≤ 2 ^ (c.W - 1) := by
  have hpos : 0 < bitString c k e L F / 2 ^ (stringLen c k L + 1) :=
    Nat.div_pos (two_pow_le_bitString e L F hw hk) (Nat.two_pow_pos _)
  have hlt : bitString c k e L F / 2 ^ (stringLen c k L + 1) < 2 ^ (c.W - 1) :=
    Nat.div_lt_of_lt_mul (bitString_lt k (by omega) he hF)
  rw [roundString_eq]
  split
  · exact ⟨Nat.succ_pos _, hlt⟩
  · exact ⟨hpos, hlt.le⟩

/-! The command (R168). -/

theorem exec_pEncode (rd : Bool) (s : State) :
    exec (.pEncode rd) s = .next (positResult rd (positEncode s.cfg (encInput s)) s) := rfl

/-! The obligations. -/

/-- Settles O44: out of the bounds the magnitude field is all ones or 1, whatever the fraction and the sticky are. -/
theorem encodeSaturatesAtBothEnds : Obligations.EncodeSaturatesAtBothEnds := by
  intro c s T L F st hL
  obtain ⟨hw, -⟩ := hL
  have hK := KMAX_cast hw
  have htwo : 2 ^ 1 ≤ 2 ^ (c.W - 1) := Nat.pow_le_pow_right two_pos (by omega)
  have hneg : 2 ^ c.W - (2 ^ (c.W - 1) - 1) = 2 ^ (c.W - 1) + 1 := by
    rw [← Nat.two_pow_pred_mul_two (by omega)]
    omega
  rw [positEncode_of_no_flag]
  constructor
  · intro hT
    rw [encMagnitude_of_KMAX_lt L F st (hK ▸ hT), ones, applySign_eq (by omega) s (by omega) (by omega)]
    exact if_congr Iff.rfl hneg rfl
  · intro hT
    rw [encMagnitude_of_lt_neg_KMAX L F st (hK ▸ hT), applySign_eq (by omega) s one_pos (by omega)]

/-- Settles O46: R and n are the regime code and its length, so B is the model's bit string; the round bit and the
sticky compare the discarded bits with half of a last place. -/
theorem encodeRoundsToNearestEven : Obligations.EncodeRoundsToNearestEven := by
  intro c s k e L F R n st hL hF he hlo hhi hnonneg hneg
  obtain ⟨hw, -⟩ := hL
  have hK := KMAX_cast hw
  obtain ⟨rfl, rfl⟩ : R = regimeCode k ∧ n = regimeLen k := by
    rcases lt_or_ge k 0 with h | h
    · obtain ⟨hcode, hlen⟩ := regime_of_neg h
      exact hcode ▸ hlen ▸ hneg h
    · obtain ⟨hcode, hlen⟩ := regime_of_nonneg h
      exact hcode ▸ hlen ▸ hnonneg h
  obtain ⟨hpos, hle⟩ := roundString_range st hw he hF hlo
  rw [positEncode_of_no_flag, encMagnitude_of_between L F st he (by omega) (by omega),
    applySign_eq (by omega) s hpos hle, roundString_eq]
  rfl

/-- Settles O42: the bundle on the ports is the one named, and a posit result goes to `r` and, with RD = 1, to BF. -/
theorem pEncodeAnswersTheEncoding : Obligations.PEncodeAnswersTheEncoding := by
  intro rd s r
  have hr : positEncode s.cfg (encInput s) = r := by
    simp only [encInput, portScale, portFrac, bitsAt_zero, r]
  refine ⟨if rd then bfOfNat s.cfg.W r else s.bf, ?_, ?_⟩
  · rw [exec_pEncode, hr, positResult_eq]
  · cases rd with
    | false => rfl
    | true => exact holdsValue_bfOfNat _ _

/-- Settles O43: the NaR flag is tested first, then the zero flag, and no other input is read. -/
theorem encodeOfFlaggedInputs : Obligations.EncodeOfFlaggedInputs :=
  fun _ _ => ⟨positEncode_of_nar, positEncode_of_zero⟩

end Sys2Proof.Proofs

/-! The normalizer (44_normalizer.md R181 to R184). -/

namespace Sys2Proof.Proofs

open Sys2Proof.Machine

/-! The functions, bit by bit (R181, R182). -/

/-- The hidden bit and w - 1 fraction bits fill w bits. -/
theorem normalize_lt (n : Nat) {w : Nat} (hw : 1 ≤ w) : Machine.normalize n w < 2 ^ w := by
  rw [Machine.normalize, ← Nat.two_pow_pred_mul_two hw, Nat.mul_two]
  exact Nat.add_lt_add_left (bitsAt_lt ..) _

/-- The fraction bits stay below the hidden bit, so bit w - 1 is 1. -/
theorem testBit_normalize_top (n w : Nat) : (Machine.normalize n w).testBit (w - 1) = true := by
  rw [Machine.normalize, Nat.testBit_two_pow_add_eq, Nat.testBit_lt_two_pow (bitsAt_lt ..), Bool.not_false]

theorem testBit_normalize_of_lt (n : Nat) {w j : Nat} (hj : j < w - 1) :
    (Machine.normalize n w).testBit j = n.testBit (j + 1) := by
  rw [Machine.normalize, Nat.testBit_two_pow_add_gt hj, testBit_bitsAt, decide_eq_true hj, Bool.true_and]

theorem denormalize_of_le (n : Nat) {sh w : Nat} (h : w - 1 ≤ sh) : denormalize n sh w = 0 := if_pos h

theorem testBit_denormalize_of_lt (n : Nat) {sh w : Nat} (h : sh < w - 1) (j : Nat) :
    (denormalize n sh w).testBit j = n.testBit (j + sh) := by
  rw [denormalize, if_neg h.not_ge, Nat.testBit_div_two_pow]

/-! The commands (R183, R184). -/

theorem exec_pNorm (s : State) :
    exec .pNorm s = .next (s.complete { rn := some (Machine.normalize (portN s) s.cfg.MW) }) := rfl

/-- The wires of port `n` are the low MW bits of what the host put there. -/
theorem testBit_portN (s : State) (j : Nat) :
    (portN s).testBit j = (decide (j < s.cfg.MW) && s.inp.n.testBit j) := testBit_bitsAt ..

/-- A legal MW holds the hidden bit (R264: MW is above FBW). -/
theorem one_le_MW_of_legal {c : Config} (h : c.Legal) : 1 ≤ c.MW := by
  obtain ⟨-, -, hMW, -⟩ := h
  omega

/-! The obligations. -/

/-- Settles O50: the hidden bit is installed above the MW - 1 upper wires of the port. -/
theorem pNormInstallsTheHiddenBit : Obligations.PNormInstallsTheHiddenBit := by
  intro s hL
  refine ⟨Machine.normalize (portN s) s.cfg.MW, exec_pNorm s, normalize_lt _ (one_le_MW_of_legal hL),
    testBit_normalize_top _ _, fun j hj => ?_⟩
  have hwire : j + 1 < s.cfg.MW := by omega
  rw [testBit_normalize_of_lt _ hj, testBit_portN, decide_eq_true hwire, Bool.true_and]

/-- Settles O51: the two branches of `denormalize`; the zero fill comes from the wires that port `n` does not have. -/
theorem pDenormShiftsRight : Obligations.PDenormShiftsRight := by
  intro sh s
  refine ⟨denormalize (portN s) sh s.cfg.MW, exec_pDenorm sh s, denormalize_of_le _, fun hsh j => ?_⟩
  rw [testBit_denormalize_of_lt _ hsh, testBit_portN]

end Sys2Proof.Proofs

/-! The adder on its special operands (46_adder_subtractor.md R201). -/

namespace Sys2Proof.Proofs

open Sys2Proof.Machine

/-! Only the two special patterns decode to no real (42_value_decoder.md R141). -/

theorem positDecode_eq_zero_iff {c : Config} {p : Bits} : positDecode c p = .zero ↔ p = 0 := by
  refine ⟨fun h => ?_, by rintro rfl; exact positDecode_zero c⟩
  unfold positDecode at h
  split at h
  next hzero => exact eq_of_beq hzero
  next => split at h <;> cases h

theorem positDecode_eq_nar_iff {c : Config} {p : Bits} : positDecode c p = .nar ↔ p = c.NAR := by
  refine ⟨fun h => ?_, by rintro rfl; exact positDecode_NAR c⟩
  unfold positDecode at h
  split at h
  next => cases h
  next =>
    split at h
    next hnar => exact eq_of_beq hnar
    next => cases h

/-! NaR wins over zero, so only the identities ask for an operand that is not NaR. -/

@[simp] theorem positAdd_NAR_left (c : Config) (b : Bits) : positAdd c c.NAR b = c.NAR := by
  rw [positAdd, positDecode_NAR]

@[simp] theorem positAdd_NAR_right (c : Config) (a : Bits) : positAdd c a c.NAR = c.NAR := by
  rw [positAdd, positDecode_NAR]
  cases positDecode c a <;> rfl

theorem positAdd_zero_left {c : Config} {b : Bits} (h : b ≠ c.NAR) : positAdd c 0 b = b := by
  rw [positAdd, positDecode_zero]
  cases hb : positDecode c b with
  | zero => rfl
  | nar => exact absurd (positDecode_eq_nar_iff.mp hb) h
  | real y => rfl

/-- When both operands are zero the adder answers `b`, which is then `a` too. -/
theorem positAdd_zero_right {c : Config} {a : Bits} (h : a ≠ c.NAR) : positAdd c a 0 = a := by
  rw [positAdd, positDecode_zero]
  cases ha : positDecode c a with
  | zero => exact (positDecode_eq_zero_iff.mp ha).symm
  | nar => exact absurd (positDecode_eq_nar_iff.mp ha) h
  | real x => rfl

/-- Settles O56: absorption and identity on either side. -/
theorem addOfSpecialOperands : Obligations.AddOfSpecialOperands := by
  intro c a b _ _ _
  refine ⟨?_, ?_, ?_⟩
  · rintro (rfl | rfl)
    · exact positAdd_NAR_left c b
    · exact positAdd_NAR_right c a
  · rintro rfl hb
    exact positAdd_zero_left hb
  · rintro rfl ha
    exact positAdd_zero_right ha

end Sys2Proof.Proofs

/-! The commands that read an unwritten bit (10_state.md R32, 60_exceptions.md R234). -/

namespace Sys2Proof.Proofs

open Sys2Proof.Machine

/-! Where a run from bit n meets an unwritten bit (40_bitfield_register.md R108). -/

theorem bfRunBelow_eq_none {bf : List BfBit} {b : Bool} {j n : Nat} (hj : j < n)
    (run : ∀ l < n, j < l → bfBit bf l = .val b) (stop : bfBit bf j = .unwritten) : bfRunBelow bf b n = none := by
  induction n with
  | zero => omega
  | succ n ih =>
    rcases Nat.lt_succ_iff_lt_or_eq.mp hj with hlt | rfl
    · have hrest : bfRunBelow bf b n = none := ih hlt fun l hl => run l (Nat.lt_succ_of_lt hl)
      simp [bfRunBelow, run n (Nat.lt_succ_self n) hlt, hrest]
    · simp [bfRunBelow, stop]

/-- The run reads bit j when the bits above it are alike; when j is n there are none. -/
theorem bfRun_eq_none {bf : List BfBit} {b : Bool} {j n : Nat} (hj : j ≤ n)
    (run : ∀ l ≤ n, j < l → bfBit bf l = .val b) (stop : bfBit bf j = .unwritten) : bfRun bf n = none := by
  rcases hj.lt_or_eq with hlt | rfl
  · rw [bfRun_reads (run n le_rfl hlt), bfRunBelow_eq_none hlt (fun l hl => run l hl.le) stop, Option.map_none]
  · simp [bfRun, stop]

/-! What the commands do. -/

theorem orUnwritten_of_eq_none {α : Type} {read : Option α} (h : read = none) (s : State) (go : α → State) :
    orUnwritten read s go = s.raise .unwrittenRead := by
  rw [h, orUnwritten_none]

theorem exec_bfGet_of_unwritten {j : Nat} {s : State} (hj : j < s.cfg.W) (h : bfBit s.bf j = .unwritten) :
    exec (.bfGet j) s = .next (s.raise .unwrittenRead) := by
  simp only [exec, execBfGet, checkIndex_of_lt hj, h]

theorem exec_bfRun_of_eq_none {n : Nat} {s : State} (hn : n < s.cfg.W) (h : bfRun s.bf n = none) :
    exec (.bfRun n) s = .next (s.raise .unwrittenRead) := by
  simp only [exec, execBfRun, checkIndex_of_lt hn, h, orUnwritten_none]

/-- The commands that read BF and take no index read all of it: BF_READ, and those with RS = 1 as operand A. -/
theorem exec_of_bfToNat_eq_none {i : Instr} {s : State} (hreads : readsBf i = true) (hindex : checkedIndex i = none)
    (h : bfToNat s.bf = none) : exec i s = .next (s.raise .unwrittenRead) := by
  cases i with
  | bfGet | bfRun => cases hindex
  | bfRead => exact congrArg Host.Outcome.next (orUnwritten_of_eq_none h s _)
  | pRegime rs | pDecode rs | pIsZero rs | pIsNar rs | pNeg rs | pAdd rs | pSub rs =>
    obtain rfl : rs = true := hreads
    exact congrArg Host.Outcome.next (orUnwritten_of_eq_none (read := operandA true s) h s _)
  | _ => cases hreads

/-- Settles O15: each of these commands reads the unwritten bit j: BF_GET asks for it, BF_RUN comes to it, and the
others read every bit. -/
theorem unwrittenReadIsRaised : Obligations.UnwrittenReadIsRaised := by
  intro s n j rd hlen hjn hn hj
  have hjW : j < s.cfg.W := hjn.trans_lt hn
  have hall : bfToNat s.bf = none := bfToNat_eq_none.mpr ⟨j, hlen ▸ hjW, hj⟩
  refine ⟨List.forall_mem_cons.mpr ⟨exec_bfGet_of_unwritten hjW hj, fun i hi => ?_⟩, ?_⟩
  · obtain ⟨hreads, hindex⟩ : readsBf i = true ∧ checkedIndex i = none := by
      simp only [List.mem_cons, List.not_mem_nil, or_false] at hi
      obtain rfl | rfl | rfl | rfl | rfl | rfl | rfl | rfl := hi <;> exact ⟨rfl, rfl⟩
    exact exec_of_bfToNat_eq_none hreads hindex hall
  · rintro ⟨b, run⟩
    exact exec_bfRun_of_eq_none hn (bfRun_eq_none hjn run hj)

end Sys2Proof.Proofs

/-! The configurations that no block is built with (70_reset_and_hazards.md R264). -/

namespace Sys2Proof.Proofs

open Sys2Proof.Machine

/-- A configuration is not legal when it breaks one of the five bounds of R264, with FBW written out. -/
theorem not_legal_iff {c : Config} :
    ¬ c.Legal ↔ c.W < 2 ∨ 65536 < c.W ∨ c.MW < max 1 (c.W - 3 - c.E) + 1 ∨ c.FIW < 1 ∨ c.SW < 2 := by
  simp only [Config.Legal, Config.FBW, Config.FB_MAX, not_and_or, not_le]

/-- The step looks at the configuration before it looks at the host's next move. -/
theorem step_of_not_legal {s : State} (h : ¬ s.cfg.Legal) : step s = .refused .illegalConfiguration := if_neg h

/-- Settles O7: a broken bound makes the configuration illegal, and the step refuses that first. -/
theorem illegalConfigurationIsRefused : Obligations.IllegalConfigurationIsRefused :=
  fun _ hbroken => step_of_not_legal (not_legal_iff.mpr hbroken)

end Sys2Proof.Proofs

/-! Command words there and back (30_encoding.md R81 to R87): the fields that the opcode table leaves free are exactly
the fields that carry a command's operands. -/

namespace Sys2Proof.Proofs

open Sys2Proof.Machine Sys2Proof.Laws

theorem op_lt (i : Instr) : i.op < 32 := by cases i <;> simp [Instr.op]

/-- The encoder puts the command's fields in their places (R81). -/
theorem encode_fields {i : Instr} (h : i.WellFormed) : opField (encode i) = i.op ∧ vField (encode i) = i.flagBits.1 ∧
    rsField (encode i) = i.flagBits.2.1 ∧ rdField (encode i) = i.flagBits.2.2 ∧ reservedField (encode i) = 0 ∧
    idxField (encode i) = i.imm?.getD 0 := wordOf_fields _ _ _ (op_lt i) h

/-- A command's opcode with its own fields selects it, and the fields its opcode does not leave free are 0. -/
theorem selected_own_fields (i : Instr) : ∃ f, freeFields i.op = some f ∧
    selected i.op i.flagBits.1 i.flagBits.2.1 i.flagBits.2.2 (i.imm?.getD 0) = some i ∧
    (f.v = false → i.flagBits.1 = false) ∧ (f.rs = false → i.flagBits.2.1 = false) ∧
    (f.rd = false → i.flagBits.2.2 = false) ∧ (f.idx = false → i.imm?.getD 0 = 0) := by
  cases i <;> exact ⟨_, rfl, rfl, by simp [Instr.flagBits], by simp [Instr.flagBits], by simp [Instr.flagBits],
    by simp [Instr.imm?]⟩

/-- A selected command has the fields its opcode leaves free, and 0 in the others. -/
theorem fields_of_selected {op : Nat} {v rs rd : Bool} {idx : Nat} {f : FreeFields} {i : Instr}
    (hf : freeFields op = some f) (hi : selected op v rs rd idx = some i) :
    i.flagBits = (f.v && v, f.rs && rs, f.rd && rd) ∧ i.imm?.getD 0 = if f.idx then idx else 0 := by
  unfold selected at hi
  split at hi <;> cases hi <;> cases hf <;> exact ⟨rfl, rfl⟩

/-- Settles O3: the word has the command's fields, which select it and misuse none. -/
theorem decodeOfEncodeIsTheCommand : Obligations.DecodeOfEncodeIsTheCommand := by
  intro i hwf
  obtain ⟨hop, hv, hrs, hrd, hres, hidx⟩ := encode_fields hwf
  obtain ⟨f, hf, hsel, fv, frs, frd, fidx⟩ := selected_own_fields i
  rw [decode_eq_ok_iff, hop, hv, hrs, hrd, hidx]
  refine ⟨f, hf, (misusedField_eq_none_iff f _).2 ?_, hsel⟩
  rw [hv, hrs, hrd, hidx]
  exact ⟨hres, fv, frs, frd, fidx⟩

/-- Settles O4: the command's own fields are the word's, since a field that is not free is 0 in both. -/
theorem encodeOfDecodeIsTheWord : Obligations.EncodeOfDecodeIsTheWord := by
  intro w i hd
  obtain ⟨f, hf, hm, hsel⟩ := decode_eq_ok_iff.1 hd
  obtain ⟨wres, wv, wrs, wrd, widx⟩ := (misusedField_eq_none_iff f w).1 hm
  obtain ⟨hflags, himm⟩ := fields_of_selected hf hsel
  have unused (b x : Bool) (h : b = false → x = false) : (b && x) = x := by cases b <;> simp_all
  have himm' : i.imm?.getD 0 = idxField w := by
    rw [himm]
    split
    · rfl
    · exact (widx (by simpa using ‹¬ f.idx = true›)).symm
  have hwf : i.WellFormed := by
    unfold Instr.WellFormed FitsIdx
    rw [himm']
    exact bitsAt_lt ..
  obtain ⟨hop, hv, hrs, hrd, hres, hidx⟩ := encode_fields hwf
  refine ⟨hwf, word_eq_iff_fields.2 ⟨?_, ?_, ?_, ?_, ?_, ?_⟩⟩
  · rw [hop, op_of_selected hsel]
  · rw [hv, hflags, unused _ _ wv]
  · rw [hrs, hflags, unused _ _ wrs]
  · rw [hrd, hflags, unused _ _ wrd]
  · rw [hres, wres]
  · rw [hidx, himm']

/-- Settles O1: eleven closed words, each decoded. -/
theorem sampleWordsDecode : Obligations.SampleWordsDecode := by
  unfold Obligations.SampleWordsDecode
  decide

end Sys2Proof.Proofs

/-! What a command does, said once (60_exceptions.md R231, R232): it completes with a new BF and outputs, or it faults
with a cause. -/

namespace Sys2Proof.Proofs

open Sys2Proof.Machine

/-- How a command ends: the cause of its fault, or BF after it and the outputs it drives. -/
abbrev Effect := Except Cause (List BfBit × Outputs)

/-- An effect that needs something readable of BF (10_state.md R32). -/
def reading {α : Type} (read : Option α) (go : α → List BfBit × Outputs) : Effect :=
  match read with
  | some x => .ok (go x)
  | none => .error .unwrittenRead

/-- An effect that comes after the index check (40_bitfield_register.md R101). -/
def indexed (i : Nat) (s : State) (e : Effect) : Effect := if i < s.cfg.W then e else .error .indexOutOfRange

/-- A bit of BF as what a read of it gives. -/
def readBit : BfBit → Option Bool
  | .unwritten => none
  | .val b => some b

/-- BF and the outputs after the posit result r (30_encoding.md R83). -/
def resultWith (rd : Bool) (s : State) (r : Bits) : List BfBit × Outputs :=
  (if rd then bfOfNat s.cfg.W r else s.bf, { r := some r })

/-- What the command does in the state s; `exec_eq_finish` ties it to the model. -/
def effect (i : Instr) (s : State) : Effect :=
  match i with
  | .bfReset => .ok (bfZero s.cfg.W, {})
  | .bfGet n => indexed n s <| reading (readBit (bfBit s.bf n)) fun b => (s.bf, { bit := some b })
  | .bfSet n v => indexed n s <| .ok (bfSetBit s.bf n v, {})
  | .bfShl n => .ok (bfShiftLeft s.cfg.W s.bf n, {})
  | .bfShr n => .ok (bfShiftRight s.cfg.W s.bf n, {})
  | .bfRun n => indexed n s <| reading (bfRun s.bf n) fun m => (s.bf, { cnt := some m })
  | .bfLoad => .ok (bfOfNat s.cfg.W (portWd s), {})
  | .bfRead => reading (bfToNat s.bf) fun v => (s.bf, { r := some v })
  | .pRegime rs => reading (operandA rs s) fun a =>
      let km := regime s.cfg.W (bitsAt a 0 (s.cfg.W - 1))
      (s.bf, { k := some (signedBits s.cfg.KW km.1), cnt := some (consumed s.cfg.W km.2) })
  | .pDecode rs => reading (operandA rs s) fun a => (s.bf, { dec := some (decPorts s.cfg (positDecode s.cfg a)) })
  | .pIsZero rs => reading (operandA rs s) fun a => (s.bf, { bit := some (isZero a) })
  | .pIsNar rs => reading (operandA rs s) fun a => (s.bf, { bit := some (isNaR s.cfg a) })
  | .pEncode rd => .ok (resultWith rd s (positEncode s.cfg (encInput s)))
  | .pNorm => .ok (s.bf, { rn := some (Machine.normalize (portN s) s.cfg.MW) })
  | .pDenorm sh => .ok (s.bf, { rn := some (denormalize (portN s) sh s.cfg.MW) })
  | .pNeg rs rd => reading (operandA rs s) fun a => resultWith rd s (positNeg s.cfg a)
  | .pAdd rs rd => reading (operandA rs s) fun a => resultWith rd s (positAdd s.cfg a (portB s))
  | .pSub rs rd => reading (operandA rs s) fun a => resultWith rd s (positAdd s.cfg a (positNeg s.cfg (portB s)))

/-- The state after a command with this effect. -/
def finish (s : State) : Effect → State
  | .ok (bf, o) => (s.withBf bf).complete o
  | .error c => s.raise c

theorem finish_indexed (n : Nat) (s : State) (e : Effect) : finish s (indexed n s e) = checkIndex n s (finish s e) := by
  unfold indexed checkIndex
  split <;> rfl

theorem finish_reading {α : Type} (read : Option α) (s : State) (go : α → List BfBit × Outputs) :
    finish s (reading read go) = orUnwritten read s fun x => finish s (.ok (go x)) := by
  cases read <;> rfl

theorem finish_resultWith (rd : Bool) (s : State) (r : Bits) :
    finish s (.ok (resultWith rd s r)) = positResult rd r s := by
  cases rd <;> rfl

/-- Every command has a next state: the one its effect gives. -/
theorem exec_eq_finish (i : Instr) (s : State) : exec i s = .next (finish s (effect i s)) := by
  cases i with
  | bfGet n =>
    simp only [exec, execBfGet, effect, finish_indexed, finish_reading]
    cases bfBit s.bf n <;> rfl
  | bfSet | bfRun | bfRead | pRegime | pDecode | pIsZero | pIsNar =>
    simp only [effect, finish_indexed, finish_reading]; rfl
  | pEncode | pNeg | pAdd | pSub => simp only [effect, finish_reading, finish_resultWith]; rfl
  | bfReset | bfShl | bfShr | bfLoad | pNorm | pDenorm => rfl

/-! The ends of an effect. -/

theorem reading_eq_ok {α : Type} {read : Option α} {go : α → List BfBit × Outputs} {x : List BfBit × Outputs} :
    reading read go = .ok x ↔ ∃ a, read = some a ∧ go a = x := by
  cases read <;> simp [reading]

theorem reading_eq_error {α : Type} {read : Option α} {go : α → List BfBit × Outputs} {c : Cause} :
    reading read go = .error c ↔ read = none ∧ c = .unwrittenRead := by
  cases read <;> simp [reading, eq_comm]

theorem indexed_eq_ok {n : Nat} {s : State} {e : Effect} {x : List BfBit × Outputs} :
    indexed n s e = .ok x ↔ n < s.cfg.W ∧ e = .ok x := by
  unfold indexed
  split <;> simp [*]

theorem indexed_eq_error {n : Nat} {s : State} {e : Effect} {c : Cause} :
    indexed n s e = .error c ↔ (s.cfg.W ≤ n ∧ c = .indexOutOfRange) ∨ (n < s.cfg.W ∧ e = .error c) := by
  unfold indexed
  split
  · simp_all [not_le]
  · simp_all [not_lt, eq_comm]

/-- A next state is the end of an effect, one way or the other. -/
theorem exec_next_cases {i : Instr} {s t : State} (h : exec i s = .next t) :
    (∃ bf o, effect i s = .ok (bf, o) ∧ t = (s.withBf bf).complete o) ∨
      ∃ c, effect i s = .error c ∧ t = s.raise c := by
  rw [exec_eq_finish] at h
  cases h
  cases effect i s with
  | ok x => exact .inl ⟨x.1, x.2, rfl, rfl⟩
  | error c => exact .inr ⟨c, rfl, rfl⟩

theorem exec_of_effect_ok {i : Instr} {s : State} {bf : List BfBit} {o : Outputs} (h : effect i s = .ok (bf, o)) :
    exec i s = .next ((s.withBf bf).complete o) := by
  rw [exec_eq_finish, h]; rfl

/-- A fault of a command is one of two: an index that is not below W, or, with any index in range, a read of BF
(60_exceptions.md R234, R235). -/
theorem effect_error {i : Instr} {s : State} {c : Cause} (h : effect i s = .error c) :
    (c = .indexOutOfRange ∧ ∃ n, checkedIndex i = some n ∧ s.cfg.W ≤ n) ∨
      (c = .unwrittenRead ∧ readsBf i = true ∧ ∀ n ∈ checkedIndex i, n < s.cfg.W) := by
  cases i with
  | bfGet n | bfRun n =>
    rcases indexed_eq_error.1 h with ⟨hn, hc⟩ | ⟨hn, he⟩
    · exact .inl ⟨hc, n, rfl, hn⟩
    · exact .inr ⟨(reading_eq_error.1 he).2, rfl, by simpa [checkedIndex] using hn⟩
  | bfSet n v =>
    rcases indexed_eq_error.1 h with ⟨hn, hc⟩ | ⟨-, he⟩
    · exact .inl ⟨hc, n, rfl, hn⟩
    · cases he
  | bfRead => exact .inr ⟨(reading_eq_error.1 h).2, rfl, by simp [checkedIndex]⟩
  | pRegime rs | pDecode rs | pIsZero rs | pIsNar rs | pNeg rs | pAdd rs | pSub rs =>
    obtain ⟨hnone, hc⟩ := reading_eq_error.1 h
    cases rs with
    | false => cases hnone
    | true => exact .inr ⟨hc, rfl, by simp [checkedIndex]⟩
  | _ => cases h

/-- What a completed command leaves in BF (10_state.md R33): BF as it was, unless the command is one of the writers;
those write every bit, one bit, or shift. -/
theorem effect_bf_cases {i : Instr} {s : State} {bf : List BfBit} {o : Outputs} (h : effect i s = .ok (bf, o)) :
    (writesBf i = false ∧ bf = s.bf) ∨ (writesBf i = true ∧
      ((∃ v, HoldsValue bf s.cfg.W v) ∨ (∃ n v, i = .bfSet n v ∧ bf = bfSetBit s.bf n v ∧ n < s.cfg.W) ∨
        (∃ n, i = .bfShl n ∧ bf = bfShiftLeft s.cfg.W s.bf n) ∨
        (∃ n, i = .bfShr n ∧ bf = bfShiftRight s.cfg.W s.bf n))) := by
  cases i with
  | bfGet | bfRun =>
    obtain ⟨_, h⟩ := indexed_eq_ok.1 h
    obtain ⟨_, _, hx⟩ := reading_eq_ok.1 h
    cases hx
    exact .inl ⟨rfl, rfl⟩
  | bfRead | pRegime | pDecode | pIsZero | pIsNar =>
    obtain ⟨_, _, hx⟩ := reading_eq_ok.1 h
    cases hx
    exact .inl ⟨rfl, rfl⟩
  | pNorm | pDenorm => cases h; exact .inl ⟨rfl, rfl⟩
  | bfReset => cases h; exact .inr ⟨rfl, .inl ⟨0, holdsValue_bfZero _⟩⟩
  | bfLoad => cases h; exact .inr ⟨rfl, .inl ⟨_, holdsValue_bfOfNat_portWd s⟩⟩
  | bfSet n v =>
    obtain ⟨hn, hx⟩ := indexed_eq_ok.1 h
    cases hx
    exact .inr ⟨rfl, .inr (.inl ⟨n, v, rfl, rfl, hn⟩)⟩
  | bfShl n => cases h; exact .inr ⟨rfl, .inr (.inr (.inl ⟨n, rfl, rfl⟩))⟩
  | bfShr n => cases h; exact .inr ⟨rfl, .inr (.inr (.inr ⟨n, rfl, rfl⟩))⟩
  | pEncode rd =>
    cases h
    cases rd with
    | false => exact .inl ⟨rfl, rfl⟩
    | true => exact .inr ⟨rfl, .inl ⟨_, holdsValue_bfOfNat _ _⟩⟩
  | pNeg rs rd | pAdd rs rd | pSub rs rd =>
    obtain ⟨_, _, hx⟩ := reading_eq_ok.1 h
    cases hx
    cases rd with
    | false => exact .inl ⟨rfl, rfl⟩
    | true => exact .inr ⟨rfl, .inl ⟨_, holdsValue_bfOfNat _ _⟩⟩

theorem effect_bf_of_not_writesBf {i : Instr} {s : State} {bf : List BfBit} {o : Outputs} (hw : writesBf i = false)
    (h : effect i s = .ok (bf, o)) : bf = s.bf := by
  rcases effect_bf_cases h with ⟨-, hbf⟩ | ⟨hw', -⟩
  · exact hbf
  · rw [hw] at hw'; cases hw'

theorem effect_bf_length {i : Instr} {s : State} {bf : List BfBit} {o : Outputs} (hlen : s.bf.length = s.cfg.W)
    (h : effect i s = .ok (bf, o)) : bf.length = s.cfg.W := by
  rcases effect_bf_cases h with ⟨-, rfl⟩ | ⟨-, ⟨v, hv, -⟩ | ⟨n, v, -, rfl, -⟩ | ⟨n, -, rfl⟩ | ⟨n, -, rfl⟩⟩
  · exact hlen
  · exact hv
  · rw [bfSetBit_length, hlen]
  · exact bfShiftLeft_length _ _ _
  · exact bfShiftRight_length _ _ _

/-- The state's part that a command looks at: the configuration, BF and the ports it uses (30_encoding.md R78, R83). -/
def seenBy (i : Instr) (s : State) : State :=
  { State.fresh s.cfg with bf := s.bf, inp := usedInputs i s.inp }

theorem effect_seenBy (i : Instr) (s : State) : effect i (seenBy i s) = effect i s := by
  cases i with
  | pRegime rs | pDecode rs | pIsZero rs | pIsNar rs | pNeg rs | pAdd rs | pSub rs => cases rs <;> rfl
  | _ => rfl

theorem effect_congr {i : Instr} {s s' : State} (hcfg : s.cfg = s'.cfg) (hbf : s.bf = s'.bf)
    (hin : usedInputs i s.inp = usedInputs i s'.inp) : effect i s = effect i s' := by
  rw [← effect_seenBy i s, ← effect_seenBy i s', seenBy, seenBy, hcfg, hbf, hin]

theorem bfShiftLeft_zero {bf : List BfBit} {w : Nat} (h : bf.length = w) : bfShiftLeft w bf 0 = bf :=
  bf_ext ((bfShiftLeft_length _ _ _).trans h.symm) fun j hj => by
    rw [bfBit_bfShiftLeft _ _ (by simpa using hj)]; simp

theorem bfShiftRight_zero {bf : List BfBit} {w : Nat} (h : bf.length = w) : bfShiftRight w bf 0 = bf :=
  bf_ext ((bfShiftRight_length _ _ _).trans h.symm) fun j hj => by
    rw [bfShiftRight_length] at hj
    rw [bfBit_bfShiftRight _ _ hj]; simp [hj]

/-- A writer's effect does not change when it is taken again, but for a shift by a nonzero amount and a command that
reads the BF it writes (20_memory.md R55). -/
theorem effect_again {i : Instr} {s : State} {bf : List BfBit} {o : Outputs} (hlen : s.bf.length = s.cfg.W)
    (hshift : ∀ n, (i = .bfShl n ∨ i = .bfShr n) → n = 0) (hneg : i ≠ .pNeg true true) (hadd : i ≠ .pAdd true true)
    (hsub : i ≠ .pSub true true) (h : effect i s = .ok (bf, o)) :
    effect i ((s.withBf bf).complete o) = .ok (bf, o) := by
  cases hw : writesBf i with
  | false =>
    obtain rfl := effect_bf_of_not_writesBf hw h
    rw [← h]
    exact effect_congr rfl rfl rfl
  | true =>
    cases i with
    | bfSet n v =>
      obtain ⟨hn, hx⟩ := indexed_eq_ok.1 h
      cases hx
      simp [effect, indexed, hn, bfSetBit]
    | bfShl n =>
      obtain rfl := hshift n (.inl rfl)
      cases h
      simp [effect, bfShiftLeft_zero hlen]
    | bfShr n =>
      obtain rfl := hshift n (.inr rfl)
      cases h
      simp [effect, bfShiftRight_zero hlen]
    | bfReset | bfLoad => cases h; rfl
    | pEncode rd =>
      obtain rfl : rd = true := hw
      cases h; rfl
    | pNeg rs rd | pAdd rs rd | pSub rs rd =>
      obtain rfl : rd = true := hw
      cases rs with
      | true => contradiction
      | false => exact h
    | bfGet | bfRun | bfRead | pRegime | pDecode | pIsZero | pIsNar | pNorm | pDenorm => cases hw

/-! The obligations. -/

/-- Settles O13: the two ends of an effect are a completion and a precise fault, with one of two causes. -/
theorem everyCommandCompletesOrFaultsPrecisely : Obligations.EveryCommandCompletesOrFaultsPrecisely := by
  intro i s
  rw [exec_eq_finish]
  cases he : effect i s with
  | ok x => exact .inl ⟨x.1, x.2, rfl⟩
  | error c =>
    refine .inr ⟨c, c.code, ?_, rfl⟩
    rcases effect_error he with ⟨rfl, -⟩ | ⟨rfl, -⟩
    · exact .inl ⟨rfl, rfl⟩
    · exact .inr ⟨rfl, rfl⟩

/-- Settles O12: the three kinds of step; a command appends at most its own entry. -/
theorem stepKeepsBooks : Obligations.StepKeepsBooks := by
  intro s t h
  obtain ⟨-, ⟨rest, hp, rfl⟩ | ⟨w, p, rest, i, hp, -, hx⟩ | ⟨w, p, rest, r, hp, -, rfl⟩⟩ := step_next_cases h
  · refine ⟨rfl, fun w p rest' hp' => ?_⟩
    rw [hp] at hp'
    cases hp'
  · obtain ⟨bf, o, -, rfl⟩ | ⟨c, -, rfl⟩ := exec_next_cases hx
    all_goals
      refine ⟨rfl, fun w' p' rest' hp' => ?_⟩
      rw [hp] at hp'
      cases hp'
    · exact ⟨rfl, rfl, rfl, rfl, .inl rfl⟩
    · exact ⟨rfl, rfl, rfl, rfl, .inr ⟨c, rfl⟩⟩
  · refine ⟨rfl, fun w' p' rest' hp' => ?_⟩
    rw [hp] at hp'
    cases hp'
    exact ⟨rfl, rfl, rfl, rfl, .inr ⟨.illegalCommand, rfl⟩⟩

theorem bfToNat_isSome_of_written {bf : List BfBit} (h : ∀ j < bf.length, bfBit bf j ≠ .unwritten) :
    ∃ v, bfToNat bf = some v :=
  Option.ne_none_iff_exists'.1 fun hnone => by
    obtain ⟨j, hj, hu⟩ := bfToNat_eq_none.1 hnone
    exact h j hj hu

/-- Operand A can be read from port `a`, and from a BF without an unwritten bit. -/
theorem operandA_isSome {rs : Bool} {s : State} (h : rs = true → ∀ j < s.bf.length, bfBit s.bf j ≠ .unwritten) :
    ∃ A, operandA rs s = some A := by
  cases rs with
  | false => exact ⟨_, rfl⟩
  | true => exact bfToNat_isSome_of_written (h rfl)

/-- Settles O16: their one fault is a read of operand A. -/
theorem positCommandsNeverFaultOtherwise : Obligations.PositCommandsNeverFaultOtherwise := by
  intro s rs rd sh h i hi
  obtain ⟨A, hA⟩ := operandA_isSome h
  have hok : ∃ x, effect i s = .ok x := by
    simp only [List.mem_cons, List.not_mem_nil, or_false] at hi
    obtain rfl | rfl | rfl | rfl | rfl | rfl | rfl | rfl | rfl | rfl := hi <;>
      simp [effect, hA, reading]
  obtain ⟨x, hx⟩ := hok
  exact ⟨x.1, x.2, exec_of_effect_ok hx⟩

/-- Settles O25: neither a fault nor the completion of a command that is no writer touches BF. -/
theorem readingCommandsLeaveBf : Obligations.ReadingCommandsLeaveBf := by
  intro i s t hw h
  obtain ⟨bf, o, he, rfl⟩ | ⟨c, -, rfl⟩ := exec_next_cases h
  · exact ⟨effect_bf_of_not_writesBf hw he, rfl, rfl, rfl, rfl⟩
  · exact ⟨rfl, rfl, rfl, rfl, rfl⟩

/-- Settles O26: a command that completed meets the BF it left with the same effect. -/
theorem repeatingACommandChangesNothing : Obligations.RepeatingACommandChangesNothing := by
  intro i s t o hlen hshift hneg hadd hsub h hresp
  obtain ⟨bf, o', he, rfl⟩ | ⟨c, -, rfl⟩ := exec_next_cases h
  · exact exec_of_effect_ok (effect_again hlen hshift hneg hadd hsub he)
  · cases hresp

theorem ne_unwritten_of_holdsValue {bf : List BfBit} {w v j : Nat} (h : HoldsValue bf w v) (hj : j < w) :
    bfBit bf j ≠ .unwritten := by
  rw [h.2 j hj]; exact nofun

/-- A shift by W or more fills every bit with a written 0. -/
theorem holdsValue_bfShiftLeft {w n : Nat} (bf : List BfBit) (hn : w ≤ n) : HoldsValue (bfShiftLeft w bf n) w 0 :=
  ⟨bfShiftLeft_length _ _ _, fun j hj => by
    rw [bfBit_bfShiftLeft bf n hj, if_neg (by omega), Nat.zero_testBit]⟩

theorem holdsValue_bfShiftRight {w n : Nat} (bf : List BfBit) (hn : w ≤ n) : HoldsValue (bfShiftRight w bf n) w 0 :=
  ⟨bfShiftRight_length _ _ _, fun j hj => by
    rw [bfBit_bfShiftRight bf n hj, if_neg (by omega), Nat.zero_testBit]⟩

/-- Settles O27: each of them leaves BF holding a value, so no bit is unwritten. -/
theorem initialisingCommandsWriteEveryBit : Obligations.InitialisingCommandsWriteEveryBit := by
  intro s n hn i hi
  have hok : ∃ bf o v, effect i s = .ok (bf, o) ∧ HoldsValue bf s.cfg.W v := by
    simp only [List.mem_cons, List.not_mem_nil, or_false] at hi
    obtain rfl | rfl | rfl | rfl | rfl | rfl | rfl | rfl := hi
    · exact ⟨_, _, _, rfl, holdsValue_bfZero _⟩
    · exact ⟨_, _, _, rfl, holdsValue_bfOfNat_portWd s⟩
    · exact ⟨_, _, _, rfl, holdsValue_bfOfNat _ _⟩
    · exact ⟨_, _, _, rfl, holdsValue_bfOfNat _ _⟩
    · exact ⟨_, _, _, rfl, holdsValue_bfOfNat _ _⟩
    · exact ⟨_, _, _, rfl, holdsValue_bfOfNat _ _⟩
    · exact ⟨_, _, _, rfl, holdsValue_bfShiftLeft _ hn⟩
    · exact ⟨_, _, _, rfl, holdsValue_bfShiftRight _ hn⟩
  obtain ⟨bf, o, v, he, hv⟩ := hok
  exact ⟨_, exec_of_effect_ok he, hv.1, fun j hj => ne_unwritten_of_holdsValue hv hj⟩

/-- Settles O28: a command that is no shift leaves BF, sets one bit of it, or writes all of it. -/
theorem writtenBitsStayWritten : Obligations.WrittenBitsStayWritten := by
  intro i s t j hlen hshift h hj
  have hjW : j < s.cfg.W := by
    by_contra hge
    exact hj (bfBit_of_le (by omega))
  obtain ⟨bf, o, he, rfl⟩ | ⟨c, -, rfl⟩ := exec_next_cases h
  · rcases effect_bf_cases he with ⟨-, rfl⟩ | ⟨-, ⟨v, hv⟩ | ⟨n, v, -, rfl, hn⟩ | ⟨n, hi, -⟩ | ⟨n, hi, -⟩⟩
    · exact hj
    · exact ne_unwritten_of_holdsValue hv hjW
    · simp only [State.complete_bf, State.withBf_bf, bfBit_bfSetBit v j (hlen ▸ hn)]
      split
      · exact nofun
      · exact hj
    · exact absurd hi (hshift n).1
    · exact absurd hi (hshift n).2
  · exact hj

/-- Settles O29: both states have one effect; a fault answers its cause alone. -/
theorem commandsSeeOnlyBfAndTheirPorts : Obligations.CommandsSeeOnlyBfAndTheirPorts := by
  intro i s s' t hcfg hbf hin h
  have he := effect_congr hcfg hbf hin
  rw [exec_eq_finish] at h
  cases h
  refine ⟨_, exec_eq_finish i s', ?_⟩
  rw [← he]
  cases effect i s with
  | ok x => exact ⟨rfl, rfl⟩
  | error c => exact ⟨hbf.symm, rfl⟩

end Sys2Proof.Proofs

/-! The commands of `bitfield_register` on their normal path, the step and the reset (40_bitfield_register.md R103 to
R111, 70_reset_and_hazards.md R260 to R263), and several blocks (60_exceptions.md R243). -/

namespace Sys2Proof.Proofs

open Sys2Proof.Machine

/-- Settles O5: the step's branch for a word that decodes. -/
theorem stepRunsTheDecodedCommand : Obligations.StepRunsTheDecodedCommand := by
  intro s w p rest i hL hp hd
  simp only [step, if_pos hL, hp, hd, State.present]

theorem step_of_reset {s : State} {rest : List HostMove} (hL : s.cfg.Legal) (hp : s.pending = .reset :: rest) :
    step s = .next (s.blockReset rest) := by
  simp only [step, if_pos hL, hp]

/-- Settles O8: the state that the reset move leaves, field by field. -/
theorem blockResetMakesBfUnwritten : Obligations.BlockResetMakesBfUnwritten := fun s rest hL hp =>
  ⟨s.blockReset rest, step_of_reset hL hp, rfl, List.length_replicate, fun _ => bfBit_replicate, rfl, rfl, rfl, rfl⟩

/-- Settles O9: the fresh state, field by field. -/
theorem freshStateIsTheResetTable : Obligations.FreshStateIsTheResetTable :=
  ⟨rfl, fun _ => ⟨rfl, List.length_replicate, fun _ => bfBit_replicate, rfl, rfl⟩⟩

/-- With nothing on record and no response only the configuration and the width of BF are left to check. -/
theorem inv_of_no_response {s : State} (hL : s.cfg.Legal) (hlen : s.bf.length = s.cfg.W) (hf : s.faults = [])
    (hr : s.resp = none) : s.Inv := by
  refine ⟨hL, hlen, ⟨?_, ?_⟩, ⟨fun _ => hf, ?_⟩⟩
  · rw [hf]; exact .nil
  · rw [hf]; exact nofun
  · rw [hr]; exact nofun

/-- Settles O10: neither launch premise has a response or a fault on record. -/
theorem launchPremisesMeetTheInvariant : Obligations.LaunchPremisesMeetTheInvariant := by
  refine ⟨inv_of_no_response (by decide) List.length_replicate rfl rfl, fun c hL => ⟨?_, fun v _ => ⟨?_, ?_⟩⟩⟩
  · exact inv_of_no_response hL List.length_replicate rfl rfl
  · exact inv_of_no_response hL (bfOfNat_length _ _) rfl rfl
  · exact holdsValue_bfOfNat _ _

/-- Settles O18: the index is in range and the bit is written, so the command completes. -/
theorem bfGetAnswersTheBit : Obligations.BfGetAnswersTheBit := by
  intro i s b hi hb
  simp only [exec, execBfGet, checkIndex_of_lt hi, hb, State.complete]

/-- Settles O19: the index is in range, so one place of BF is written. -/
theorem bfSetWritesOneBit : Obligations.BfSetWritesOneBit := by
  intro i v s hi hlen
  refine ⟨bfSetBit s.bf i v, ?_, (bfSetBit_length _ _ _).trans hlen, fun j _ => bfBit_bfSetBit v j (hlen ▸ hi)⟩
  simp only [exec, execBfSet, checkIndex_of_lt hi, State.complete, State.withBf]

/-- What BF_RUN does with a run that it can read to its end. -/
theorem exec_bfRun_of_eq_some {i n : Nat} {s : State} (hi : i < s.cfg.W) (h : bfRun s.bf i = some n) :
    exec (.bfRun i) s = .next (s.complete { cnt := some n }) := by
  simp only [exec, execBfRun, checkIndex_of_lt hi, h, orUnwritten_some]

/-- Settles O22: the run from bit i is bit i and the n - 1 bits of the run below it. -/
theorem bfRunCountsDownward : Obligations.BfRunCountsDownward := by
  intro i n b s hi hn hni run stop
  obtain ⟨m, rfl⟩ : ∃ m, n = m + 1 := ⟨n - 1, by omega⟩
  have below : bfRunBelow s.bf b i = some m := by
    refine bfRunBelow_eq (by omega) (fun l hl => ?_) ?_
    · have := run (l + 1) (by omega)
      rwa [show i - 1 - l = i - (l + 1) by omega]
    · rw [show i - 1 - m = i - (m + 1) by omega]
      exact stop.imp_left fun h => by omega
  refine exec_bfRun_of_eq_some hi ?_
  have top : bfBit s.bf i = .val b := run 0 (by omega)
  rw [bfRun_reads top, below, Option.map_some]

/-- Settles O24: a BF that holds a value reads as that value. -/
theorem bfReadAnswersTheValue : Obligations.BfReadAnswersTheValue := by
  intro s v hv h
  simp only [exec, execBfRead, bfToNat_of_holdsValue h hv, orUnwritten_some, State.complete]

/-! The regime unit against BF_RUN (R109). -/

theorem bfRun_of_holdsValue {bf : List BfBit} {w v i : Nat} (h : HoldsValue bf w v) (hi : i < w) :
    bfRun bf i = some (runLength v (v.testBit i) (i + 1)) := by
  rw [bfRun_reads (h.2 i hi), bfRunBelow_of_holdsValue h _ hi.le]
  simp [runLength]

/-- Settles O33: BF then holds the port's pattern, whose bits from W - 2 down are the regime unit's field. -/
theorem regimeRunIsBfRunAfterLoad : Obligations.RegimeRunIsBfRunAfterLoad := by
  rintro s A ⟨hW, -⟩ rfl -
  have hrun := bfRun_of_holdsValue (holdsValue_bfOfNat_portWd s) (by omega : s.cfg.W - 2 < s.cfg.W)
  refine ⟨_, _, exec_bfLoad s, exec_bfRun_of_eq_some (by simp; omega) hrun, ?_⟩
  have field : ∀ l < s.cfg.W - 1, (s.inp.wd % 2 ^ (s.cfg.W - 1)).testBit l = s.inp.wd.testBit l := fun l hl => by
    simp [Nat.testBit_mod_two_pow, hl]
  simp only [State.complete_resp, regime, field (s.cfg.W - 2) (by omega), runLength_congr field,
    show s.cfg.W - 2 + 1 = s.cfg.W - 1 by omega]

/-! Several blocks. -/

/-- The state a block steps to, if it has a step. -/
def stepped (s : State) : Option State :=
  match step s with
  | .next t => some t
  | .fault _ => none
  | .refused _ => none

/-- A step of one block writes its place in the list with what that block alone steps to. -/
theorem stepAt_eq (sys : System) (j : Nat) : sys.stepAt j = (sys[j]?.bind stepped).map (sys.set j) := by
  unfold System.stepAt
  cases sys[j]? with
  | none => rfl
  | some s =>
    simp only [Option.bind_some, stepped]
    cases step s <;> rfl

/-- After a step of block i, block j steps to what it would have stepped to before. -/
theorem stepAt_set {i j : Nat} (hij : i ≠ j) (sys : System) (t : State) :
    System.stepAt (sys.set i t) j = (sys[j]?.bind stepped).map ((sys.set i t).set j) := by
  rw [stepAt_eq, List.getElem?_set_ne hij]

/-- Settles O30: steps of two blocks write two places of the list, and neither reads what the other writes. -/
theorem instancesAreIndependent : Obligations.InstancesAreIndependent := by
  intro sys i j hij
  refine ⟨fun sys' h => ?_, ?_⟩
  · rw [stepAt_eq] at h
    obtain ⟨t, -, rfl⟩ := Option.map_eq_some_iff.1 h
    exact ⟨List.length_set, List.getElem?_set_ne hij⟩
  · rw [stepAt_eq sys i, stepAt_eq sys j]
    simp only [Option.bind_map, Function.comp_def, stepAt_set hij, stepAt_set hij.symm]
    cases sys[i]?.bind stepped <;> cases sys[j]?.bind stepped <;> simp [List.set_comm _ _ hij]

end Sys2Proof.Proofs

/-! Patterns as a sign and a magnitude field (30_encoding.md R71, 42_value_decoder.md R141, R142): every pattern but 0
and NaR is `applySign c s M` for one field M between them, so the decoder and the negator are known by s and M. -/

namespace Sys2Proof.Proofs

open Sys2Proof.Machine

/-- A magnitude field: W - 1 bits that are not all 0 (R142). -/
abbrev IsField (c : Config) (M : Nat) : Prop := 0 < M ∧ M < 2 ^ (c.W - 1)

theorem two_pow_W {c : Config} (hw : 2 ≤ c.W) : 2 ^ c.W = 2 ^ (c.W - 1) + 2 ^ (c.W - 1) :=
  (Nat.two_pow_pred_add_two_pow_pred (by omega)).symm

section
variable {c : Config} {M : Nat} (hw : 2 ≤ c.W) (hM : IsField c M) (s : Bool)
include hw hM

/-- The sign is negation modulo `2^W`. -/
theorem applySign_of_isField : applySign c s M = if s then 2 ^ c.W - M else M :=
  applySign_eq (by omega) s hM.1 hM.2.le

theorem applySign_lt : applySign c s M < 2 ^ c.W := by
  have := two_pow_W hw
  obtain ⟨hpos, hlt⟩ := hM
  rw [applySign_of_isField hw ⟨hpos, hlt⟩]
  unfold Bits
  split <;> omega

theorem le_applySign_iff : 2 ^ (c.W - 1) ≤ applySign c s M ↔ s = true := by
  have := two_pow_W hw
  obtain ⟨hpos, hlt⟩ := hM
  rw [applySign_of_isField hw ⟨hpos, hlt⟩]
  unfold Bits
  cases s <;> simp <;> omega

theorem testBit_applySign : (applySign c s M).testBit (c.W - 1) = s := by
  rw [testBit_top (by omega) (applySign_lt hw hM s), Bool.decide_congr (le_applySign_iff hw hM s), Bool.decide_eq_true]

theorem applySign_ne_zero : applySign c s M ≠ 0 := by
  have := two_pow_W hw
  obtain ⟨hpos, hlt⟩ := hM
  rw [applySign_of_isField hw ⟨hpos, hlt⟩]
  unfold Bits
  split <;> omega

theorem applySign_ne_NAR : applySign c s M ≠ c.NAR := by
  have := two_pow_W hw
  obtain ⟨hpos, hlt⟩ := hM
  rw [applySign_of_isField hw ⟨hpos, hlt⟩, Config.NAR]
  unfold Bits
  split <;> omega

omit hw in
/-- The bits below the sign are the field or its two's complement. -/
theorem bitsAt_applySign : bitsAt (applySign c s M) 0 (c.W - 1) = if s then tc (c.W - 1) M else M := by
  cases s with
  | false => exact bitsAt_eq_self hM.2
  | true => simp [applySign, bitsAt_zero, Nat.mod_eq_of_lt (tc_lt _ _)]

theorem magnitude_applySign : magnitude c (applySign c s M) = M := by
  rw [magnitude, testBit_applySign hw hM, bitsAt_applySign hM]
  cases s with
  | false => rfl
  | true => exact tc_tc hM.2

theorem positDecode_applySign : positDecode c (applySign c s M) = .real (partsOf c s M) := by
  simp [positDecode, isZero, isNaR, applySign_ne_zero hw hM, applySign_ne_NAR hw hM, testBit_applySign hw hM,
    magnitude_applySign hw hM]

theorem positNeg_applySign : positNeg c (applySign c s M) = applySign c (!s) M := by
  simp only [positNeg, isZero, isNaR, applySign_ne_zero hw hM, applySign_ne_NAR hw hM, testBit_applySign hw hM,
    bitsAt_applySign hM, beq_iff_eq, Bool.or_eq_true, or_self, if_false]
  cases s with
  | false => simp [applySign, bitVal]
  | true => simp [applySign, bitVal, tc_tc hM.2]

end

/-- Every pattern that is neither 0 nor NaR is a sign and a field. -/
theorem exists_applySign {c : Config} {p : Nat} (hw : 2 ≤ c.W) (hp : p < 2 ^ c.W) (hzero : p ≠ 0) (hnar : p ≠ c.NAR) :
    ∃ s M, IsField c M ∧ p = applySign c s M := by
  have hW := two_pow_W hw
  unfold Config.NAR at hnar
  rcases Nat.lt_or_ge p (2 ^ (c.W - 1)) with h | h
  · exact ⟨false, p, ⟨by omega, h⟩, rfl⟩
  · have hM : IsField c (2 ^ c.W - p) := ⟨by omega, by omega⟩
    refine ⟨true, _, hM, ?_⟩
    rw [applySign_of_isField hw hM, if_pos rfl]
    omega

/-- The three kinds of pattern. -/
theorem pattern_cases {c : Config} {p : Nat} (hw : 2 ≤ c.W) (hp : p < 2 ^ c.W) :
    p = 0 ∨ p = c.NAR ∨ ∃ s M, IsField c M ∧ p = applySign c s M := by
  by_cases hzero : p = 0
  · exact .inl hzero
  by_cases hnar : p = c.NAR
  · exact .inr (.inl hnar)
  · exact .inr (.inr (exists_applySign hw hp hzero hnar))

/-- What decodes to a real is a sign and a field, and its components are theirs. -/
theorem exists_applySign_of_real {c : Config} {p : Nat} {x : RealParts} (hw : 2 ≤ c.W) (hp : p < 2 ^ c.W)
    (h : positDecode c p = .real x) : ∃ s M, IsField c M ∧ p = applySign c s M ∧ x = partsOf c s M := by
  obtain rfl | rfl | ⟨s, M, hM, rfl⟩ := pattern_cases hw hp
  · cases h
  · rw [positDecode_NAR] at h; cases h
  · rw [positDecode_applySign hw hM] at h
    cases h
    exact ⟨s, M, hM, rfl, rfl⟩

/-! The value (R148). -/

@[simp] theorem value_zero (c : Config) : value c 0 = some 0 := rfl

@[simp] theorem value_NAR (c : Config) : value c c.NAR = none := by rw [value, positDecode_NAR]

theorem value_applySign {c : Config} {M : Nat} (hw : 2 ≤ c.W) (hM : IsField c M) (s : Bool) :
    value c (applySign c s M) = some (partsOf c s M).value := by
  rw [value, positDecode_applySign hw hM]

theorem signFactor_not (s : Bool) : signFactor (!s) = -signFactor s := by cases s <;> simp [signFactor]

theorem value_partsOf_not (c : Config) (s : Bool) (M : Nat) : (partsOf c (!s) M).value = -(partsOf c s M).value := by
  unfold RealParts.value
  rw [show (partsOf c (!s) M).s = !(partsOf c s M).s from rfl, signFactor_not]
  simp only [neg_mul]
  rfl

/-! The negator (45_negator.md R190, R191). -/

@[simp] theorem positNeg_zero (c : Config) : positNeg c 0 = 0 := rfl

@[simp] theorem positNeg_NAR (c : Config) : positNeg c c.NAR = c.NAR := by simp [positNeg, isNaR]

theorem NAR_lt {c : Config} (hw : 2 ≤ c.W) : c.NAR < 2 ^ c.W := Nat.pow_lt_pow_right one_lt_two (by omega)

/-- The negator is the W-bit two's complement of the whole pattern. -/
theorem positNeg_eq_tc {c : Config} {p : Nat} (hw : 2 ≤ c.W) (hp : p < 2 ^ c.W) : positNeg c p = tc c.W p := by
  have hW := two_pow_W hw
  have hhalf := Nat.two_pow_pos (c.W - 1)
  obtain rfl | rfl | ⟨s, M, hM, rfl⟩ := pattern_cases hw hp
  · rw [positNeg_zero, tc_zero]
  · rw [positNeg_NAR, Config.NAR, tc_pos hhalf, hW, Nat.add_sub_cancel]
  · have hle : M < 2 ^ (c.W - 1) := hM.2
    rw [positNeg_applySign hw hM, tc_pos (Nat.pos_of_ne_zero (applySign_ne_zero hw hM s)), applySign_of_isField hw hM,
      applySign_of_isField hw hM]
    unfold Bits
    cases s with
    | false => rfl
    | true => simp; omega

theorem positNeg_lt {c : Config} {p : Nat} (hw : 2 ≤ c.W) (hp : p < 2 ^ c.W) : positNeg c p < 2 ^ c.W :=
  positNeg_eq_tc hw hp ▸ tc_lt _ _

theorem positNeg_positNeg {c : Config} {p : Nat} (hw : 2 ≤ c.W) (hp : p < 2 ^ c.W) : positNeg c (positNeg c p) = p := by
  rw [positNeg_eq_tc hw (positNeg_lt hw hp), positNeg_eq_tc hw hp, tc_tc hp]

theorem value_positNeg {c : Config} {p : Nat} (hw : 2 ≤ c.W) (hp : p < 2 ^ c.W) :
    value c (positNeg c p) = (value c p).map (- ·) := by
  obtain rfl | rfl | ⟨s, M, hM, rfl⟩ := pattern_cases hw hp
  · simp
  · simp
  · simp only [positNeg_applySign hw hM, value_applySign hw hM, value_partsOf_not, Option.map_some]

/-! The commands. -/

/-- What a command with a posit result leaves in BF. -/
theorem holdsValue_or_eq (rd : Bool) (s : State) (r : Bits) :
    if rd then HoldsValue (if rd then bfOfNat s.cfg.W r else s.bf) s.cfg.W r
    else (if rd then bfOfNat s.cfg.W r else s.bf) = s.bf := by
  cases rd with
  | false => rfl
  | true => exact holdsValue_bfOfNat _ _

/-- Settles O53: the negator is the two's complement of the pattern, and RD routes its result. -/
theorem pNegAnswersTheTwosComplement : Obligations.PNegAnswersTheTwosComplement := by
  intro rs rd s A hL hA
  refine ⟨_, ?_, holdsValue_or_eq rd s _⟩
  simp only [exec, execPNeg, operandA_of_operandIs hA, orUnwritten_some, positResult_eq, positNeg_eq_tc hL.1 hA.1, tc]

/-- Settles O54: the two's complement is an involution, and it changes the sign of the value alone. -/
theorem negationIsExact : Obligations.NegationIsExact := by
  refine fun c p hL hp => ⟨positNeg_lt hL.1 hp, positNeg_positNeg hL.1 hp, positNeg_NAR c, fun v hv => ?_⟩
  rw [value_positNeg hL.1 hp, hv, Option.map_some]

/-- Settles O40: the field is the same and the sign is the other. -/
theorem decodeIsSignSymmetric : Obligations.DecodeIsSignSymmetric := by
  intro c p x hL hp hx
  obtain ⟨s, M, hM, rfl, rfl⟩ := exists_applySign_of_real hL.1 hp hx
  refine ⟨?_, _, value_applySign hL.1 hM s, ?_⟩
  · rw [positNeg_applySign hL.1 hM, positDecode_applySign hL.1 hM]
    rfl
  · rw [value_positNeg hL.1 hp, value_applySign hL.1 hM, Option.map_some]

/-- Settles O34: the components are read from the field of the pattern. -/
theorem decodeSplitsThePattern : Obligations.DecodeSplitsThePattern := by
  intro c p hL hp
  refine ⟨positDecode_eq_zero_iff, positDecode_eq_nar_iff, fun hzero hnar => ?_⟩
  obtain ⟨s, M, hM, rfl⟩ := exists_applySign hL.1 hp hzero hnar
  have hs : decide (2 ^ (c.W - 1) ≤ applySign c s M) = s :=
    (Bool.decide_congr (le_applySign_iff hL.1 hM s)).trans Bool.decide_eq_true
  have hW := two_pow_W hL.1
  have hMeq : M = if 2 ^ (c.W - 1) ≤ applySign c s M then 2 ^ c.W - applySign c s M else applySign c s M := by
    obtain ⟨hpos, hlt⟩ := hM
    rw [if_congr (le_applySign_iff hL.1 ⟨hpos, hlt⟩ s) rfl rfl, applySign_of_isField hL.1 ⟨hpos, hlt⟩]
    cases s with
    | false => rfl
    | true => simp; omega
  exact ⟨_, positDecode_applySign hL.1 hM s, hs.symm, M, _, hMeq, hM.1, hM.2, rfl, rfl, rfl, rfl, rfl,
    partsOf_e_lt c s M, bitsAt_zero _ _, partsOf_nf_le hL s M, rfl⟩

/-- Settles O38: the predicates compare with 0 and with NaR. -/
theorem predicatesTestTheOnePattern : Obligations.PredicatesTestTheOnePattern := by
  intro rs s A hA
  simp only [exec, execPIsZero, execPIsNar, operandA_of_operandIs hA, orUnwritten_some]
  exact ⟨rfl, rfl⟩

/-- Settles O55: operand A is readable and port `b` is its W wires, and RD routes the sum. -/
theorem pAddAndPSubAnswerTheSum : Obligations.PAddAndPSubAnswerTheSum := by
  intro rs rd s A hL hA b
  refine ⟨⟨_, ?_, holdsValue_or_eq rd s _⟩, ⟨_, ?_, holdsValue_or_eq rd s _⟩⟩
  · simp only [exec, execPAdd, operandA_of_operandIs hA, orUnwritten_some, positResult_eq, portB_eq, b]
  · simp only [exec, execPSub, operandA_of_operandIs hA, orUnwritten_some, positResult_eq, portB_eq, b]

end Sys2Proof.Proofs

/-! The regime of a field, and the scale (41_regime_decoder.md R130 to R132, 42_value_decoder.md R143 to R147). -/

namespace Sys2Proof.Proofs

open Sys2Proof.Machine

/-! The run of the first bit. -/

theorem regime_k_of_one {w f : Nat} (h : f.testBit (w - 2) = true) : (regime w f).1 = ((regime w f).2 : Int) - 1 := by
  simp [regime, h]

theorem regime_k_of_zero {w f : Nat} (h : f.testBit (w - 2) = false) : (regime w f).1 = -((regime w f).2 : Int) := by
  simp [regime, h]

theorem regime_bits {w f j : Nat} (hj : j < (regime w f).2) : f.testBit (w - 2 - j) = f.testBit (w - 2) := by
  have := runLength_bits hj
  rwa [show w - 1 - 1 - j = w - 2 - j by omega] at this

theorem regime_stop {w f : Nat} (h : (regime w f).2 < w - 1) :
    f.testBit (w - 2 - (regime w f).2) = !f.testBit (w - 2) := by
  have := runLength_stop h
  rwa [show w - 1 - 1 = w - 2 by omega] at this

/-- The regime code has the length of the run and its end (R164). -/
theorem regimeLen_regime {w f : Nat} (hw : 2 ≤ w) : regimeLen (regime w f).1 = (regime w f).2 + 1 := by
  obtain ⟨hm, -⟩ := regime_m_range (f := f) hw
  cases h : f.testBit (w - 2) with
  | false => rw [regime_k_of_zero h]; unfold regimeLen; split <;> omega
  | true => rw [regime_k_of_one h]; unfold regimeLen; split <;> omega

/-- A run that fills the field: its bits are alike. -/
theorem field_of_full_run {w f : Nat} (hf : f < 2 ^ (w - 1)) (hm : (regime w f).2 = w - 1) :
    f = if f.testBit (w - 2) then 2 ^ (w - 1) - 1 else 0 := by
  refine Nat.eq_of_testBit_eq fun j => ?_
  rcases Nat.lt_or_ge j (w - 1) with hj | hj
  · have := regime_bits (w := w) (f := f) (j := w - 2 - j) (by omega)
    rw [show w - 2 - (w - 2 - j) = j by omega] at this
    rw [this]
    cases f.testBit (w - 2) <;> simp [Nat.testBit_two_pow_sub_one, hj]
  · rw [Nat.testBit_lt_two_pow (hf.trans_le (Nat.pow_le_pow_right two_pos hj))]
    cases f.testBit (w - 2) <;> simp [Nat.testBit_two_pow_sub_one, hj]

/-- The regime code of k >= 0 is k + 1 ones above a 0 (R164). -/
theorem testBit_regimeCode_of_nonneg {k : Int} (h : 0 ≤ k) (j : Nat) :
    (regimeCode k).testBit j = decide (1 ≤ j ∧ j ≤ k.toNat + 1) := by
  rw [regimeCode, if_pos h, ones]
  cases j with
  | zero => simp [Nat.testBit_zero]
  | succ j => simp [Nat.testBit_succ, Nat.testBit_two_pow_sub_one]

theorem testBit_regimeCode_of_neg {k : Int} (h : k < 0) (j : Nat) : (regimeCode k).testBit j = decide (j = 0) := by
  rw [(regime_of_neg h).1]
  cases j with
  | zero => rfl
  | succ j => simp [Nat.testBit_succ]

/-- A run that ends in the field: the field's first bits are the regime code of k (R164). -/
theorem field_div_eq_regimeCode {w f : Nat} (hw : 2 ≤ w) (hf : f < 2 ^ (w - 1)) (hm : (regime w f).2 < w - 1) :
    f / 2 ^ (w - 2 - (regime w f).2) = regimeCode (regime w f).1 := by
  obtain ⟨hm1, -⟩ := regime_m_range (f := f) hw
  have hcode (j : Nat) : (regimeCode (regime w f).1).testBit j =
      if j = 0 then !f.testBit (w - 2) else decide (j ≤ (regime w f).2) && f.testBit (w - 2) := by
    cases h : f.testBit (w - 2) with
    | true =>
      rw [regime_k_of_one h, testBit_regimeCode_of_nonneg (by omega),
        show (((regime w f).2 : Int) - 1).toNat + 1 = (regime w f).2 by omega]
      rcases Nat.eq_zero_or_pos j with hj | hj
      · simp [hj]
      · simp [hj.ne', Nat.one_le_iff_ne_zero]
    | false =>
      rw [regime_k_of_zero h, testBit_regimeCode_of_neg (by omega)]
      split <;> simp [*]
  refine Nat.eq_of_testBit_eq fun j => ?_
  rw [Nat.testBit_div_two_pow, hcode]
  split
  next h => rw [h, Nat.zero_add, regime_stop hm]
  next h =>
    rcases Nat.lt_or_ge (regime w f).2 j with hj | hj
    · rw [Nat.testBit_lt_two_pow (hf.trans_le (Nat.pow_le_pow_right two_pos (by omega)))]
      simp [hj]
    · have := regime_bits (w := w) (f := f) (j := (regime w f).2 - j) (by omega)
      rw [show w - 2 - ((regime w f).2 - j) = j + (w - 2 - (regime w f).2) by omega] at this
      simp [this, hj]

theorem regime_zero {w : Nat} (hw : 2 ≤ w) : regime w 0 = (-((w : Int) - 1), w - 1) := by
  have : runLength 0 false (w - 1) = w - 1 := runLength_eq le_rfl (by simp) (.inl rfl)
  simp [regime, this]
  omega

theorem regime_ones {w : Nat} (hw : 2 ≤ w) : regime w (2 ^ (w - 1) - 1) = ((w : Int) - 2, w - 1) := by
  have hbit : ∀ j < w - 1, (2 ^ (w - 1) - 1).testBit j = true := fun j hj => by
    simp [Nat.testBit_two_pow_sub_one, hj]
  have : runLength (2 ^ (w - 1) - 1) true (w - 1) = w - 1 :=
    runLength_eq le_rfl (fun l hl => hbit _ (by omega)) (.inl rfl)
  simp [regime, this, hbit (w - 2) (by omega)]
  omega

theorem regime_k_eq_max_iff {w f : Nat} (hw : 2 ≤ w) (hf : f < 2 ^ (w - 1)) :
    (regime w f).1 = (w : Int) - 2 ↔ f = 2 ^ (w - 1) - 1 := by
  refine ⟨fun hk => ?_, fun h => by rw [h, regime_ones hw]⟩
  obtain ⟨hm1, -⟩ := regime_m_range (f := f) hw
  cases h : f.testBit (w - 2) with
  | false => rw [regime_k_of_zero h] at hk; omega
  | true =>
    rw [regime_k_of_one h] at hk
    rw [field_of_full_run hf (by omega), if_pos h]

/-- The least k is the all-zero field's, which is no pattern's field. -/
theorem regime_k_eq_min_iff {w f : Nat} (hw : 2 ≤ w) (hf : f < 2 ^ (w - 1)) :
    (regime w f).1 = -((w : Int) - 1) ↔ f = 0 := by
  refine ⟨fun hk => ?_, fun h => by rw [h, regime_zero hw]⟩
  obtain ⟨hm1, -⟩ := regime_m_range (f := f) hw
  cases h : f.testBit (w - 2) with
  | true => rw [regime_k_of_one h] at hk; omega
  | false =>
    rw [regime_k_of_zero h] at hk
    rw [field_of_full_run hf (by omega), if_neg (by simp [h])]

theorem regime_one {w : Nat} (hw : 2 ≤ w) : (regime w 1).1 = -((w : Int) - 2) := by
  rcases hw.eq_or_lt with rfl | hw
  · rfl
  · have bit {l : Nat} : Nat.testBit 1 l = decide (l = 0) := testBit_regimeCode_of_neg neg_one_lt_zero l
    have hrun : runLength 1 false (w - 1) = w - 2 :=
      runLength_eq (by omega) (fun l hl => by rw [bit, decide_eq_false (by omega)])
        (.inr (by rw [bit, decide_eq_true (by omega)]; simp))
    have hfirst : Nat.testBit 1 (w - 2) = false := by rw [bit, decide_eq_false (by omega)]
    rw [regime_k_of_zero hfirst]
    simp [regime, hfirst, hrun]
    omega

/-- Settles O32: k reaches its bounds only where one run fills the field. -/
theorem regimeRanges : Obligations.RegimeRanges := by
  intro w f hw hf k m c
  obtain ⟨hm1, hmw⟩ := regime_m_range (f := f) hw
  obtain ⟨hklo, hkhi⟩ := regime_k_range (f := f) hw
  obtain ⟨hc1, hcw, hc2⟩ := consumed_range hw hm1
  exact ⟨hm1, hmw, hklo, hkhi, hc1, hcw, hc2, regime_k_eq_min_iff hw hf, regime_k_eq_max_iff hw hf⟩

/-! The scale of a pattern (R146, R147). -/

section
variable {c : Config} {M : Nat} (hw : 2 ≤ c.W) (hM : IsField c M) (s : Bool)
include hw hM

/-- A field that is not 0 has k within the bounds of the encoder (R163). -/
theorem partsOf_k_range : -((c.W : Int) - 2) ≤ (partsOf c s M).k ∧ (partsOf c s M).k ≤ (c.W : Int) - 2 := by
  obtain ⟨hlo, hhi⟩ := regime_k_range (f := M) hw
  have hne : (regime c.W M).1 ≠ -((c.W : Int) - 1) := fun h => hM.1.ne' ((regime_k_eq_min_iff hw hM.2).1 h)
  exact ⟨show -((c.W : Int) - 2) ≤ (regime c.W M).1 by omega, hhi⟩

omit hM in
/-- Where the regime takes the whole field there is no exponent bit (R144). -/
theorem partsOf_e_eq_zero (hk : (partsOf c s M).k = (c.W : Int) - 2 ∨ (partsOf c s M).k = -((c.W : Int) - 2)) :
    (partsOf c s M).e = 0 := by
  have hm : c.W - 2 ≤ (regime c.W M).2 := by
    obtain ⟨hm1, -⟩ := regime_m_range (f := M) hw
    change (regime c.W M).1 = _ ∨ (regime c.W M).1 = _ at hk
    cases h : M.testBit (c.W - 2) with
    | true => rw [regime_k_of_one h] at hk; omega
    | false => rw [regime_k_of_zero h] at hk; omega
  have hc : consumed c.W (regime c.W M).2 = c.W - 1 := by unfold consumed; omega
  simp [partsOf, hc, bitsAt, Nat.mod_one]

theorem partsOf_k_eq_max_iff : (partsOf c s M).k = (c.W : Int) - 2 ↔ M = 2 ^ (c.W - 1) - 1 :=
  regime_k_eq_max_iff hw hM.2

theorem partsOf_k_eq_min_iff : (partsOf c s M).k = -((c.W : Int) - 2) ↔ M = 1 := by
  refine ⟨fun hk => ?_, fun h => by rw [h]; exact regime_one hw⟩
  change (regime c.W M).1 = _ at hk
  obtain ⟨hm1, -⟩ := regime_m_range (f := M) hw
  cases h : M.testBit (c.W - 2) with
  | true =>
    have hW : c.W = 2 := by rw [regime_k_of_one h] at hk; omega
    obtain ⟨hpos, hlt⟩ := hM
    rw [hW] at hlt
    omega
  | false =>
    rw [regime_k_of_zero h] at hk
    have hdiv := field_div_eq_regimeCode hw hM.2 (by omega)
    rwa [show c.W - 2 - (regime c.W M).2 = 0 by omega, pow_zero, Nat.div_one, regime_k_of_zero h,
      (regime_of_neg (by omega)).1] at hdiv

end

/-- With e below `2^E`, the scales at and beyond a multiple of `2^E` are those with k at and beyond it. -/
theorem scale_bounds {K k : Int} {e n : Nat} (he : e < 2 ^ n) (hlo : -K ≤ k) (hhi : k ≤ K) (hmax : k = K → e = 0)
    (hmin : k = -K → e = 0) : -(K * 2 ^ n) ≤ k * 2 ^ n + e ∧ k * 2 ^ n + e ≤ K * 2 ^ n ∧
      (k * 2 ^ n + e = K * 2 ^ n ↔ k = K) ∧ (k * 2 ^ n + e = -(K * 2 ^ n) ↔ k = -K) := by
  have he' : (e : Int) < 2 ^ n := by exact_mod_cast he
  have he0 : (0 : Int) ≤ e := Int.natCast_nonneg e
  have hpos : (0 : Int) < 2 ^ n := by positivity
  have hK : k * 2 ^ n + e ≤ K * 2 ^ n ∧ (k * 2 ^ n + e = K * 2 ^ n ↔ k = K) := by
    rcases hhi.eq_or_lt with rfl | h
    · simp [hmax rfl]
    · have : (k + 1) * 2 ^ n ≤ K * 2 ^ n := Int.mul_le_mul_of_nonneg_right h hpos.le
      rw [add_mul] at this
      exact ⟨by omega, ⟨fun h => by omega, fun h => by omega⟩⟩
  have hnegK : -(K * 2 ^ n) ≤ k * 2 ^ n + e ∧ (k * 2 ^ n + e = -(K * 2 ^ n) ↔ k = -K) := by
    rcases hlo.eq_or_lt with h | h
    · simp [hmin h.symm, ← h]
    · have : (-K + 1) * 2 ^ n ≤ k * 2 ^ n := Int.mul_le_mul_of_nonneg_right h hpos.le
      rw [add_mul, neg_mul] at this
      exact ⟨by omega, ⟨fun h => by omega, fun h => by omega⟩⟩
  exact ⟨hnegK.1, hK.1, hK.2, hnegK.2⟩

theorem SMAX_cast {c : Config} (hw : 2 ≤ c.W) : (c.SMAX : Int) = ((c.W : Int) - 2) * 2 ^ c.E := by
  rw [Config.SMAX, Nat.cast_mul, KMAX_cast hw]
  push_cast
  rfl

/-- The bounds of the scale, and the fields that reach them (R147). -/
theorem partsOf_T_range {c : Config} {M : Nat} (hw : 2 ≤ c.W) (hM : IsField c M) (s : Bool) :
    -(c.SMAX : Int) ≤ (partsOf c s M).T ∧ (partsOf c s M).T ≤ c.SMAX ∧
      ((partsOf c s M).T = c.SMAX ↔ M = 2 ^ (c.W - 1) - 1) ∧ ((partsOf c s M).T = -(c.SMAX : Int) ↔ M = 1) := by
  obtain ⟨hlo, hhi⟩ := partsOf_k_range hw hM s
  rw [← partsOf_k_eq_max_iff hw hM s, ← partsOf_k_eq_min_iff hw hM s, SMAX_cast hw]
  exact scale_bounds (partsOf_e_lt c s M) hlo hhi (fun h => partsOf_e_eq_zero hw s (.inl h))
    (fun h => partsOf_e_eq_zero hw s (.inr h))

/-- A pattern is known by its field up to the sign. -/
theorem applySign_eq_iff {c : Config} {M N : Nat} (hw : 2 ≤ c.W) (hM : IsField c M) (hN : IsField c N) (s : Bool) :
    M = N ↔ applySign c s M = N ∨ applySign c s M = 2 ^ c.W - N := by
  have hW := two_pow_W hw
  rw [applySign_of_isField hw hM]
  obtain ⟨hpos, hlt⟩ := hM
  obtain ⟨hpos', hlt'⟩ := hN
  unfold Bits
  cases s <;> simp <;> omega

/-- Settles O39: the bounds are those of the fields 1 and all ones, under either sign. -/
theorem scaleRange : Obligations.ScaleRange := by
  rintro c p x ⟨hw, -⟩ hp hx
  obtain ⟨s, M, hM, rfl, rfl⟩ := exists_applySign_of_real hw hp hx
  obtain ⟨hlo, hhi, hmax, hmin⟩ := partsOf_T_range hw hM s
  have hW := two_pow_W hw
  have htwo : 2 ^ 1 ≤ 2 ^ (c.W - 1) := Nat.pow_le_pow_right two_pos (by omega)
  rw [hmax, hmin, applySign_eq_iff hw hM ⟨by omega, by omega⟩ s, applySign_eq_iff hw hM ⟨one_pos, by omega⟩ s]
  rw [show 2 ^ c.W - (2 ^ (c.W - 1) - 1) = 2 ^ (c.W - 1) + 1 by omega]
  exact ⟨hlo, hhi, Iff.rfl, Iff.rfl⟩

/-! The ports of P_DECODE (R151, 30_encoding.md R79). -/

theorem sext_signedBits_scale {c : Config} {T : Int} (hlo : -(c.SMAX : Int) ≤ T) (hhi : T ≤ c.SMAX) :
    sext c.TW (signedBits c.TW T) = T := by
  have hS : (c.SMAX : Int) + 1 ≤ 2 ^ (c.TW - 1) := by exact_mod_cast le_two_pow_clog2 (c.SMAX + 1)
  exact sext_signedBits (Nat.le_add_left 1 _) (by omega) (by omega)

theorem nf_le_FBW {c : Config} (hL : c.Legal) (s : Bool) (M : Nat) : (partsOf c s M).nf ≤ c.FBW :=
  (partsOf_nf_le hL s M).trans (Nat.le_max_right _ _)

/-- The fraction fits its port left-aligned. -/
theorem decFrac_lt {c : Config} (hL : c.Legal) (s : Bool) (M : Nat) :
    (partsOf c s M).f * 2 ^ (c.FBW - (partsOf c s M).nf) < 2 ^ c.FBW := by
  calc _ < 2 ^ (partsOf c s M).nf * 2 ^ (c.FBW - (partsOf c s M).nf) :=
        Nat.mul_lt_mul_of_pos_right (partsOf_f_lt c s M) (Nat.two_pow_pos _)
    _ = 2 ^ c.FBW := by rw [← pow_add, Nat.add_sub_cancel' (nf_le_FBW hL s M)]

/-- Settles O36: the ports hold the components because k, T and the fraction are within their widths. -/
theorem pDecodeDrivesTheComponents : Obligations.PDecodeDrivesTheComponents := by
  intro rs s A x hL hA hx
  obtain ⟨sg, M, hM, hAeq, rfl⟩ := exists_applySign_of_real hL.1 hA.1 hx
  obtain ⟨hlo, hhi, -⟩ := partsOf_T_range hL.1 hM sg
  refine ⟨decPorts s.cfg (.real (partsOf s.cfg sg M)), ?_, rfl, rfl, rfl, signedBits_lt _ _,
    sext_signedBits_regime hL.1 M, rfl, rfl, rfl, rfl, rfl, decFrac_lt hL sg M, signedBits_lt _ _,
    sext_signedBits_scale hlo hhi⟩
  rw [exec_pDecode_of_operandIs hA, hx]
  rfl

/-- Settles O37: the ports hold the sign, the scale and the fraction moved up to FBW bits. -/
theorem pDecodePortsCarryTheValue : Obligations.PDecodePortsCarryTheValue := by
  intro rs s t A hL hA hzero hnar h
  obtain ⟨sg, M, hM, rfl⟩ := exists_applySign hL.1 hA.1 hzero hnar
  obtain ⟨d, hd, -, -, hsign, -, -, -, -, -, -, hfrac, -, -, hscale⟩ :=
    pDecodeDrivesTheComponents rs s _ _ hL hA (positDecode_applySign hL.1 hM sg)
  rw [hd] at h
  cases h
  refine ⟨d, rfl, ?_⟩
  have hmove : (2 : ℚ) ^ s.cfg.FBW = 2 ^ (partsOf s.cfg sg M).nf * 2 ^ (s.cfg.FBW - (partsOf s.cfg sg M).nf) := by
    rw [← pow_add, Nat.add_sub_cancel' (nf_le_FBW hL sg M)]
  rw [value_applySign hL.1 hM, hsign, hscale, hfrac, RealParts.value, signFactor, hmove]
  push_cast
  rw [mul_div_mul_right _ _ (by positivity)]

end Sys2Proof.Proofs

/-! Where a real stands among the fields (43_value_encoder.md R164 to R166). The real `2^T * (1 + t)`, with t from 0 to
1, has the place `0.B_1 B_2 ...` between 0 and 1: its bit string read as a binary fraction. The place grows with the
real, a field M stands at `M / 2^(W-1)`, and the encoder rounds the place to W - 1 bits. -/

namespace Sys2Proof.Proofs

open Sys2Proof.Machine

/-! Functions of a scale and a fraction that grow with both. -/

/-- g grows with the fraction, and where the fraction reaches 1 the next scale begins. -/
structure IsScale (g : Int → ℚ → ℚ) : Prop where
  lt_of_lt : ∀ T {t u}, t < u → g T t < g T u
  one : ∀ T, g T 1 = g (T + 1) 0

namespace IsScale
variable {g h : Int → ℚ → ℚ} (hg : IsScale g) (hh : IsScale h)
include hg

theorem le_of_le (T : Int) {t u : ℚ} (htu : t ≤ u) : g T t ≤ g T u := by
  rcases htu.eq_or_lt with rfl | hlt
  · exact le_rfl
  · exact (hg.lt_of_lt T hlt).le

theorem strictMono : StrictMono fun T => g T 0 :=
  strictMono_int_of_lt_succ fun T => hg.one T ▸ hg.lt_of_lt T one_pos

/-- A larger scale is larger whatever the fractions below 1 are. -/
theorem lt_of_scale_lt {T U : Int} {t u : ℚ} (ht : t < 1) (hu : 0 ≤ u) (hTU : T < U) : g T t < g U u :=
  calc g T t < g T 1 := hg.lt_of_lt T ht
    _ = g (T + 1) 0 := hg.one T
    _ ≤ g U 0 := hg.strictMono.monotone hTU
    _ ≤ g U u := hg.le_of_le U hu

theorem lt_iff {T U : Int} {t u : ℚ} (ht : 0 ≤ t) (ht1 : t < 1) (hu : 0 ≤ u) (hu1 : u < 1) :
    g T t < g U u ↔ T < U ∨ (T = U ∧ t < u) := by
  rcases lt_trichotomy T U with h | rfl | h
  · simp [h, hg.lt_of_scale_lt ht1 hu h]
  · simp only [lt_irrefl, true_and, false_or]
    exact ⟨fun hlt => not_le.1 fun hle => hlt.not_ge (hg.le_of_le T hle), hg.lt_of_lt T⟩
  · simp [h.not_gt, h.ne', (hg.lt_of_scale_lt hu1 ht h).le]

theorem eq_iff {T U : Int} {t u : ℚ} (ht : 0 ≤ t) (ht1 : t < 1) (hu : 0 ≤ u) (hu1 : u < 1) :
    g T t = g U u ↔ T = U ∧ t = u := by
  refine ⟨fun heq => ?_, by rintro ⟨rfl, rfl⟩; rfl⟩
  have h1 := (hg.lt_iff ht ht1 hu hu1 (T := T) (U := U)).not.1 heq.not_lt
  have h2 := (hg.lt_iff hu hu1 ht ht1 (T := U) (U := T)).not.1 heq.symm.not_lt
  have hTU : T = U := by omega
  subst hTU
  exact ⟨rfl, le_antisymm (by simpa using h2) (by simpa using h1)⟩

include hh

/-- Two such functions order the reals alike, a fraction of 1 included. -/
theorem le_iff_le {T U : Int} {t u : ℚ} (ht : 0 ≤ t) (ht1 : t < 1) (hu : 0 ≤ u) (hu1 : u ≤ 1) :
    g T t ≤ g U u ↔ h T t ≤ h U u := by
  rcases hu1.eq_or_lt with rfl | hlt
  · rw [hg.one, hh.one, ← not_lt, ← not_lt, hg.lt_iff le_rfl one_pos ht ht1, hh.lt_iff le_rfl one_pos ht ht1]
  · rw [← not_lt, ← not_lt, hg.lt_iff hu hlt ht ht1, hh.lt_iff hu hlt ht ht1]

theorem ge_iff_ge {T U : Int} {t u : ℚ} (ht : 0 ≤ t) (ht1 : t < 1) (hu : 0 ≤ u) (hu1 : u ≤ 1) :
    g U u ≤ g T t ↔ h U u ≤ h T t := by
  rcases hu1.eq_or_lt with rfl | hlt
  · rw [hg.one, hh.one, ← not_lt, ← not_lt, hg.lt_iff ht ht1 le_rfl one_pos, hh.lt_iff ht ht1 le_rfl one_pos]
  · rw [← not_lt, ← not_lt, hg.lt_iff ht ht1 hu hlt, hh.lt_iff ht ht1 hu hlt]

end IsScale

/-- The real of scale T and fraction t (R77). -/
def scaled (T : Int) (t : ℚ) : ℚ := 2 ^ T * (1 + t)

theorem isScale_scaled : IsScale scaled where
  lt_of_lt T t u h := by unfold scaled; gcongr
  one T := by rw [scaled, scaled, zpow_add_one₀ two_ne_zero]; ring

/-! The place of a real. -/

/-- The bit string of R164 read as a binary fraction. -/
def place (c : Config) (T : Int) (t : ℚ) : ℚ :=
  (regimeCode (encK c T) + (encE c T + t) / 2 ^ c.E) / 2 ^ regimeLen (encK c T)

theorem scale_eq (c : Config) (T : Int) : T = encK c T * 2 ^ c.E + encE c T := by
  have hpos : (0 : Int) < 2 ^ c.E := by positivity
  rw [encK, encE, Int.toNat_of_nonneg (Int.emod_nonneg _ hpos.ne'), mul_comm, Int.mul_ediv_add_emod]

theorem encE_lt (c : Config) (T : Int) : encE c T < 2 ^ c.E := by
  have hpos : (0 : Int) < 2 ^ c.E := by positivity
  have := Int.emod_lt_of_pos T hpos
  rw [encE, Int.toNat_lt (Int.emod_nonneg _ hpos.ne')]
  exact_mod_cast this

/-- The next regime code begins where the codes of k end. -/
theorem regimeCode_succ (k : Int) :
    ((regimeCode k : ℚ) + 1) / 2 ^ regimeLen k = regimeCode (k + 1) / 2 ^ regimeLen (k + 1) := by
  have key : (regimeCode k + 1) * 2 ^ regimeLen (k + 1) = regimeCode (k + 1) * 2 ^ regimeLen k := by
    rcases lt_trichotomy k (-1) with h | rfl | h
    · obtain ⟨hcode, hlen⟩ := regime_of_neg (by omega : k < 0)
      obtain ⟨hcode', hlen'⟩ := regime_of_neg (by omega : k + 1 < 0)
      rw [hcode, hlen, hcode', hlen', show (-k).toNat + 1 = (-(k + 1)).toNat + 1 + 1 by omega]
      ring
    · rfl
    · obtain ⟨hcode, hlen⟩ := regime_of_nonneg (by omega : 0 ≤ k)
      obtain ⟨hcode', hlen'⟩ := regime_of_nonneg (by omega : 0 ≤ k + 1)
      have hpow : 2 ^ ((k + 1).toNat + 2) = 2 * 2 ^ (k.toNat + 2) := by
        rw [show (k + 1).toNat + 2 = k.toNat + 2 + 1 by omega, pow_succ']
      have hle : 2 ^ 2 ≤ 2 ^ (k.toNat + 2) := Nat.pow_le_pow_right two_pos (by omega)
      rw [hcode, hlen, hcode', hlen', hpow]
      generalize 2 ^ (k.toNat + 2) = n at *
      obtain ⟨m, rfl⟩ : ∃ m, n = m + 2 := ⟨n - 2, by omega⟩
      rw [show m + 2 - 2 + 1 = m + 1 by omega, show 2 * (m + 2) - 2 = 2 * (m + 1) by omega]
      ring
  rw [div_eq_div_iff (by positivity) (by positivity)]
  exact_mod_cast key

theorem place_mul_add {c : Config} (k : Int) {e : Nat} (he : e < 2 ^ c.E) (t : ℚ) :
    place c (k * 2 ^ c.E + e) t = (regimeCode k + (e + t) / 2 ^ c.E) / 2 ^ regimeLen k := by
  rw [place, encK_mul_add c k he, encE_mul_add c k he]

theorem isScale_place (c : Config) : IsScale (place c) where
  lt_of_lt T t u h := by unfold place; gcongr
  one T := by
    have he := encE_lt c T
    rw [scale_eq c T]
    generalize encE c T = e at *
    generalize encK c T = k
    rw [place_mul_add k he]
    rcases Nat.lt_or_ge (e + 1) (2 ^ c.E) with hlt | hge
    · have := place_mul_add k hlt 0
      push_cast at this
      rw [add_assoc, this, add_zero]
    · have hE : (e : ℚ) + 1 = 2 ^ c.E := by exact_mod_cast (by omega : e + 1 = 2 ^ c.E)
      have hT : k * 2 ^ c.E + e + 1 = (k + 1) * 2 ^ c.E + (0 : Nat) := by
        have : (e : Int) + 1 = 2 ^ c.E := by exact_mod_cast (by omega : e + 1 = 2 ^ c.E)
        rw [add_assoc, this]; push_cast; ring
      rw [hT, place_mul_add (k + 1) (Nat.two_pow_pos _), hE, div_self (by positivity), regimeCode_succ]
      simp

/-- The bits of R164 over their length: the first W - 1 of them count whole. -/
theorem bitString_div {c : Config} (hw : 1 ≤ c.W) (T : Int) (L F : Nat) :
    (bitString c (encK c T) (encE c T) L F : ℚ) / (2 ^ (stringLen c (encK c T) L + 1) : Nat) =
      2 ^ (c.W - 1) * place c T (F / 2 ^ L) := by
  have hW : (2 : ℚ) ^ c.W = 2 * 2 ^ (c.W - 1) := by rw [← pow_succ', Nat.sub_add_cancel hw]
  unfold bitString stringLen place
  push_cast
  rw [hW]
  field_simp
  ring

/-! Rounding (R165). -/

/-- Round to nearest, ties to even, but a tie with the sticky set goes up. -/
def roundEven (y : ℚ) (st : Bool) : Nat :=
  if 1 / 2 < Int.fract y ∨ (Int.fract y = 1 / 2 ∧ (st = true ∨ ⌊y⌋₊ % 2 = 1)) then ⌊y⌋₊ + 1 else ⌊y⌋₊

theorem roundEven_of_lt {y : ℚ} (h : Int.fract y < 1 / 2) (st : Bool) : roundEven y st = ⌊y⌋₊ :=
  if_neg fun hor => hor.elim h.not_gt fun heq => h.ne heq.1

theorem roundEven_of_gt {y : ℚ} (h : 1 / 2 < Int.fract y) (st : Bool) : roundEven y st = ⌊y⌋₊ + 1 := if_pos (.inl h)

theorem roundEven_of_sticky {y : ℚ} (h : 1 / 2 ≤ Int.fract y) : roundEven y true = ⌊y⌋₊ + 1 :=
  if_pos (h.lt_or_eq.imp_right fun heq => ⟨heq.symm, .inl rfl⟩)

theorem roundEven_natCast (n : Nat) (st : Bool) : roundEven n st = n := by
  rw [roundEven_of_lt (by simp), Nat.floor_natCast]

theorem roundEven_of_tie {y : ℚ} (h : Int.fract y = 1 / 2) : roundEven y false % 2 = 0 := by
  simp only [roundEven, h, lt_irrefl, true_and, false_or, Bool.false_eq_true]
  split <;> omega

/-- The discarded part of a number of bits, in units of the last place. -/
theorem floor_add_fract {y : ℚ} (hy : 0 ≤ y) : (⌊y⌋₊ : ℚ) + Int.fract y = y := by
  rw [natCast_floor_eq_intCast_floor hy, Int.floor_add_fract]

/-- A number less than half below n does not round up to n. -/
theorem roundEven_lt {y : ℚ} {n : Nat} (hy : 0 ≤ y) (h : y < n - 1 / 2) (st : Bool) : roundEven y st < n := by
  have hf := floor_add_fract hy
  have hpos := Int.fract_nonneg y
  unfold roundEven
  split
  next hup =>
    have : 1 / 2 ≤ Int.fract y := hup.elim le_of_lt fun heq => heq.1.ge
    have : ((⌊y⌋₊ + 1 : Nat) : ℚ) < n := by push_cast; linarith
    exact_mod_cast this
  next =>
    have : (⌊y⌋₊ : ℚ) < n := by linarith
    exact_mod_cast this

/-- The model's rounding of its bit string is this rounding of the place. -/
theorem roundString_eq_roundEven {c : Config} (hw : 1 ≤ c.W) (T : Int) (L F : Nat) (st : Bool) :
    roundString c (encK c T) (encE c T) L F st = roundEven (2 ^ (c.W - 1) * place c T (F / 2 ^ L)) st := by
  rw [← bitString_div hw, roundString_eq, roundEven, Nat.floor_div_eq_div, Int.fract_div_natCast_eq_div_natCast_mod]
  generalize bitString c (encK c T) (encE c T) L F = b
  generalize stringLen c (encK c T) L = n
  have hlt (x : Nat) : (1 / 2 : ℚ) < x / (2 ^ (n + 1) : Nat) ↔ 2 ^ n < x := by
    rw [lt_div_iff₀ (by positivity), ← @Nat.cast_lt ℚ]
    push_cast
    rw [pow_succ, show (1 / 2 : ℚ) * (2 ^ n * 2) = 2 ^ n by ring]
  have heq (x : Nat) : (x : ℚ) / (2 ^ (n + 1) : Nat) = 1 / 2 ↔ x = 2 ^ n := by
    rw [div_eq_iff (by positivity), ← @Nat.cast_inj ℚ]
    push_cast
    rw [pow_succ, show (1 / 2 : ℚ) * (2 ^ n * 2) = 2 ^ n by ring]
  simp only [hlt, heq, Nat.add_sub_cancel]

/-! The encoder as a rounding (R163, R165). -/

theorem fraction_range {L F : Nat} (hF : F < 2 ^ L) : (0 : ℚ) ≤ F / 2 ^ L ∧ (F / 2 ^ L : ℚ) < 1 := by
  refine ⟨by positivity, ?_⟩
  rw [div_lt_one (by positivity)]
  exact_mod_cast hF

theorem encMagnitude_eq {c : Config} (hw : 1 ≤ c.W) (T : Int) (L F : Nat) (st : Bool) :
    encMagnitude c T L F st = if (c.KMAX : Int) < encK c T then ones (c.W - 1)
      else if encK c T < -(c.KMAX : Int) then 1 else roundEven (2 ^ (c.W - 1) * place c T (F / 2 ^ L)) st := by
  rw [← roundString_eq_roundEven hw]
  rfl

end Sys2Proof.Proofs

/-! The round trip and the encoder's results (42_value_decoder.md R150, 30_encoding.md R76, 43_value_encoder.md R166 to
R170). -/

namespace Sys2Proof.Proofs

open Sys2Proof.Machine

/-! A field stands at its own place. -/

/-- The exponent bits present and the fraction bits, n bits together, read as the exponent and the fraction. -/
theorem exponent_fraction_eq (E n hi : Nat) {f : Nat} (hf : f < 2 ^ (n - min E n)) :
    (2 : ℚ) ^ n * (((hi * 2 ^ (E - min E n) : Nat) + (f : ℚ) / 2 ^ (n - min E n)) / 2 ^ E) =
      (hi * 2 ^ (n - min E n) + f : Nat) := by
  rcases le_total E n with h | h
  · rw [min_eq_left h, Nat.sub_self, pow_zero, mul_one]
    obtain ⟨d, rfl⟩ := Nat.exists_eq_add_of_le h
    rw [Nat.add_sub_cancel_left, pow_add]
    push_cast
    field_simp
  · rw [min_eq_right h, Nat.sub_self, pow_zero] at *
    obtain ⟨d, rfl⟩ := Nat.exists_eq_add_of_le h
    obtain rfl : f = 0 := by omega
    rw [Nat.add_sub_cancel_left, pow_add]
    push_cast
    field_simp
    ring

theorem field_of_full_regime {c : Config} {M : Nat} (hM : IsField c M) (hm : (regime c.W M).2 = c.W - 1) :
    M = 2 ^ (c.W - 1) - 1 := by
  have hfull := field_of_full_run hM.2 hm
  split at hfull
  · exact hfull
  · exact absurd hfull hM.1.ne'

/-- The all-ones field, whose regime takes every bit. -/
theorem place_partsOf_of_full {c : Config} {M : Nat} (hw : 2 ≤ c.W) (hM : IsField c M) (s : Bool)
    (hm : (regime c.W M).2 = c.W - 1) :
    2 ^ (c.W - 1) * place c (partsOf c s M).T ((partsOf c s M).f / 2 ^ (partsOf c s M).nf) = M := by
  have hfull := field_of_full_regime hM hm
  have hk := (partsOf_k_eq_max_iff hw hM s).2 hfull
  have he := partsOf_e_eq_zero (M := M) hw s (.inl hk)
  have hc : consumed c.W (regime c.W M).2 = c.W - 1 := by unfold consumed; omega
  have hf : (partsOf c s M).f = 0 := by simp [partsOf, hc, bitsAt, Nat.mod_one]
  have hT : (partsOf c s M).T = (partsOf c s M).k * 2 ^ c.E + ((partsOf c s M).e : Nat) := rfl
  obtain ⟨hcode, hlen⟩ := regime_of_nonneg (by omega : (0 : Int) ≤ (c.W : Int) - 2)
  have hone : 1 ≤ 2 ^ (c.W - 1) := Nat.one_le_two_pow
  rw [hT, place_mul_add _ (partsOf_e_lt c s M), hk, he, hf, hcode, hlen, hfull,
    show ((c.W : Int) - 2).toNat + 2 = c.W - 1 + 1 by omega, Nat.cast_sub hone,
    Nat.cast_sub (by rw [pow_succ]; omega), pow_succ]
  push_cast
  field_simp
  ring

/-- A field whose regime ends in it: its first bits are the regime code, and the other n bits the exponent and the
fraction. -/
theorem place_partsOf_of_lt {c : Config} {M : Nat} (hw : 2 ≤ c.W) (hM : IsField c M) (s : Bool)
    (hm : (regime c.W M).2 < c.W - 1) :
    2 ^ (c.W - 1) * place c (partsOf c s M).T ((partsOf c s M).f / 2 ^ (partsOf c s M).nf) = M := by
  have hdiv := field_div_eq_regimeCode hw hM.2 hm
  have hlen := regimeLen_regime (f := M) hw
  set k := (regime c.W M).1
  set m := (regime c.W M).2
  set n := c.W - 2 - m
  set nE := min c.E n
  have hn : c.W - 1 - consumed c.W m = n := by unfold consumed; omega
  have hparts : partsOf c s M = ⟨s, k, consumed c.W m, nE, bitsAt M (n - nE) nE * 2 ^ (c.E - nE), n - nE,
      bitsAt M 0 (n - nE), k * 2 ^ c.E + (bitsAt M (n - nE) nE * 2 ^ (c.E - nE) : Nat)⟩ := by
    simp only [partsOf, ← hn, k, m, nE]
  have he := partsOf_e_lt c s M
  rw [hparts] at he ⊢
  have hrest : bitsAt M (n - nE) nE * 2 ^ (n - nE) + bitsAt M 0 (n - nE) = M % 2 ^ n := by
    have := Nat.mod_mul (x := M) (a := 2 ^ (n - nE)) (b := 2 ^ nE)
    rw [← pow_add, show n - nE + nE = n by omega] at this
    rw [this, bitsAt_zero, bitsAt]
    ring
  have hM' : (M : ℚ) = 2 ^ n * regimeCode k + (M % 2 ^ n : Nat) := by
    rw [← hdiv]
    exact_mod_cast (Nat.div_add_mod M (2 ^ n)).symm
  have hpow : (2 : ℚ) ^ (c.W - 1) = 2 ^ n * 2 ^ regimeLen k := by
    rw [hlen, ← pow_add]
    congr 1
    omega
  have hfrac := exponent_fraction_eq c.E n (bitsAt M (n - nE) nE) (bitsAt_lt M 0 (n - nE))
  rw [hrest] at hfrac
  calc _ = (2 : ℚ) ^ n * (regimeCode k + ((bitsAt M (n - nE) nE * 2 ^ (c.E - nE) : Nat) +
          (bitsAt M 0 (n - nE) : ℚ) / 2 ^ (n - nE)) / 2 ^ c.E) := by
        rw [place_mul_add k he, hpow]
        field_simp
    _ = M := by rw [mul_add, hfrac, ← hM']

/-- The components of a field give back the field (R143 to R146 against R164). -/
theorem place_partsOf {c : Config} {M : Nat} (hw : 2 ≤ c.W) (hM : IsField c M) (s : Bool) :
    2 ^ (c.W - 1) * place c (partsOf c s M).T ((partsOf c s M).f / 2 ^ (partsOf c s M).nf) = M := by
  rcases (regime_m_range (f := M) hw).2.eq_or_lt with hm | hm
  · exact place_partsOf_of_full hw hM s hm
  · exact place_partsOf_of_lt hw hM s hm

/-- A bound of the place, from where the regime code of W - 1 begins. -/
theorem place_lt {c : Config} (hw : 2 ≤ c.W) {T : Int} {t : ℚ} (ht : t < 1) (hT : encK c T ≤ (c.W : Int) - 2) :
    2 ^ (c.W - 1) * place c T t < (2 ^ (c.W - 1) : Nat) - 1 / 2 := by
  have hlt : T < ((c.W : Int) - 1) * 2 ^ c.E + (0 : Nat) := by
    have he : (encE c T : Int) < 2 ^ c.E := by exact_mod_cast encE_lt c T
    have hk : (encK c T + 1) * 2 ^ c.E ≤ ((c.W : Int) - 1) * 2 ^ c.E :=
      Int.mul_le_mul_of_nonneg_right (by omega) (by positivity)
    rw [scale_eq c T]
    push_cast
    linarith
  have hplace := (isScale_place c).lt_of_scale_lt ht le_rfl hlt
  obtain ⟨hcode, hlen⟩ := regime_of_nonneg (by omega : (0 : Int) ≤ (c.W : Int) - 1)
  rw [place_mul_add _ (Nat.two_pow_pos _), hcode, hlen, show ((c.W : Int) - 1).toNat + 2 = c.W - 1 + 2 by omega,
    Nat.cast_sub (by rw [pow_add]; have := Nat.two_pow_pos (c.W - 1); omega)] at hplace
  push_cast at hplace ⊢
  calc _ < 2 ^ (c.W - 1) * ((2 ^ (c.W - 1 + 2) - 2 + (0 + 0) / 2 ^ c.E) / 2 ^ (c.W - 1 + 2) : ℚ) := by gcongr
    _ = 2 ^ (c.W - 1) - 1 / 2 := by rw [pow_add]; field_simp; ring

/-- The encoder's magnitude is a field: not 0, and not rounded up to the place of NaR (R166). -/
theorem encMagnitude_isField {c : Config} (hw : 2 ≤ c.W) (T : Int) {L F : Nat} (hF : F < 2 ^ L) (st : Bool) :
    IsField c (encMagnitude c T L F st) := by
  have hK := KMAX_cast hw
  have htwo : 2 ^ 1 ≤ 2 ^ (c.W - 1) := Nat.pow_le_pow_right two_pos (by omega)
  rw [encMagnitude_eq (by omega)]
  split
  · unfold IsField ones; omega
  split
  · unfold IsField; omega
  · have hlo : -((c.W : Int) - 2) ≤ encK c T := by omega
    obtain ⟨ht, ht1⟩ := fraction_range hF
    rw [← roundString_eq_roundEven (by omega)]
    refine ⟨(roundString_range st hw (encE_lt c T) hF hlo).1, ?_⟩
    rw [roundString_eq_roundEven (by omega)]
    exact roundEven_lt (by unfold place; positivity) (place_lt hw ht1 (by omega)) st

/-- A pattern's components encode to its field (R150). -/
theorem encMagnitude_partsOf {c : Config} {M : Nat} (hw : 2 ≤ c.W) (hM : IsField c M) (s : Bool) :
    encMagnitude c (partsOf c s M).T (partsOf c s M).nf (partsOf c s M).f false = M := by
  obtain ⟨hlo, hhi⟩ := partsOf_k_range hw hM s
  have hk : encK c (partsOf c s M).T = (partsOf c s M).k := encK_mul_add c _ (partsOf_e_lt c s M)
  have hK := KMAX_cast hw
  rw [encMagnitude_eq (by omega), hk, if_neg (by omega), if_neg (by omega), place_partsOf hw hM s, roundEven_natCast]

/-- Settles O41: a field stands at its own place, so it is encoded without rounding. -/
theorem encodeOfDecodeIsThePattern : Obligations.EncodeOfDecodeIsThePattern := by
  intro c p hL hp
  obtain rfl | rfl | ⟨s, M, hM, rfl⟩ := pattern_cases hL.1 hp
  · exact fun _ _ _ _ _ => positEncode_of_zero rfl rfl
  · rw [positDecode_NAR]
    exact fun _ _ _ _ _ _ => positEncode_of_nar rfl
  · rw [positDecode_applySign hL.1 hM]
    exact congrArg (applySign c s) (encMagnitude_partsOf hL.1 hM s)

/-- Settles O45: the encoder's magnitude is a field, and a field with a sign is such a pattern. -/
theorem encodeOfARealIsAReal : Obligations.EncodeOfARealIsAReal := by
  intro c s T L F st hL hF r
  have hM := encMagnitude_isField hL.1 T hF st
  exact ⟨applySign_lt hL.1 hM s, applySign_ne_zero hL.1 hM s, applySign_ne_NAR hL.1 hM s, testBit_applySign hL.1 hM s⟩

/-- Settles O47: the scale and the fraction of a real are determined, and only they reach the encoder's rounding. -/
theorem oneRealHasOnePattern : Obligations.OneRealHasOnePattern := by
  intro c s T T' L F L' F' hL hF hF' h
  obtain ⟨ht, ht1⟩ := fraction_range hF
  obtain ⟨hu, hu1⟩ := fraction_range hF'
  obtain ⟨rfl, htu⟩ := (isScale_scaled.eq_iff ht ht1 hu hu1).1 h
  have hw : 1 ≤ c.W := by have := hL.1; omega
  rw [positEncode_of_no_flag, positEncode_of_no_flag, encMagnitude_eq hw, encMagnitude_eq hw, htu]

/-! The sticky (R170). -/

/-- Numbers above one with d + 1 binary places, and below the next one, are rounded as that one with the sticky set. -/
theorem roundEven_sticky_eq {A d : Nat} {y : ℚ} (st : Bool) (hlo : (A : ℚ) / (2 ^ (d + 1) : Nat) < y)
    (hhi : y < (A + 1 : Nat) / (2 ^ (d + 1) : Nat)) : roundEven (A / (2 ^ (d + 1) : Nat)) true = roundEven y st := by
  have hfloor : ⌊(A : ℚ) / (2 ^ (d + 1) : Nat)⌋₊ = A / 2 ^ (d + 1) := Nat.floor_div_eq_div _ _
  have hfract : Int.fract ((A : ℚ) / (2 ^ (d + 1) : Nat)) = (A % 2 ^ (d + 1) : Nat) / (2 ^ (d + 1) : Nat) :=
    Int.fract_div_natCast_eq_div_natCast_mod
  have hA : (A : ℚ) / (2 ^ (d + 1) : Nat) =
      (A / 2 ^ (d + 1) : Nat) + (A % 2 ^ (d + 1) : Nat) / (2 ^ (d + 1) : Nat) := by
    rw [← hfract, ← hfloor, floor_add_fract (by positivity)]
  have hr : A % 2 ^ (d + 1) < 2 ^ (d + 1) := Nat.mod_lt _ (Nat.two_pow_pos _)
  push_cast [add_div] at hhi
  push_cast at hlo hA hfract
  generalize A / 2 ^ (d + 1) = q at *
  generalize A % 2 ^ (d + 1) = r at *
  have hhalf : (2 : ℚ) ^ (d + 1) = 2 * 2 ^ d := pow_succ' 2 d
  have hpos : (0 : ℚ) < 2 ^ (d + 1) := by positivity
  have hnext : (r : ℚ) / 2 ^ (d + 1) + 1 / 2 ^ (d + 1) ≤ 1 := by
    rw [← add_div, div_le_one hpos]; exact_mod_cast hr
  have hr0 : (0 : ℚ) ≤ r / 2 ^ (d + 1) := by positivity
  have hy : ⌊y⌋₊ = q := (Nat.floor_eq_iff (by linarith [Nat.cast_nonneg (α := ℚ) q])).2 ⟨by linarith, by linarith⟩
  have hyf : (q : ℚ) + Int.fract y = y := hy ▸ floor_add_fract (by linarith [Nat.cast_nonneg (α := ℚ) q])
  rcases Nat.lt_or_ge r (2 ^ d) with h | h
  · have hbelow : (r : ℚ) / 2 ^ (d + 1) + 1 / 2 ^ (d + 1) ≤ 1 / 2 := by
      rw [← add_div, div_le_div_iff₀ hpos two_pos, hhalf]
      have : (r : ℚ) + 1 ≤ 2 ^ d := by exact_mod_cast h
      linarith
    have hunit : (0 : ℚ) < 1 / 2 ^ (d + 1) := by positivity
    rw [roundEven_of_lt (by push_cast; linarith), roundEven_of_lt (by linarith), hfloor, hy]
  · have habove : 1 / 2 ≤ (r : ℚ) / 2 ^ (d + 1) := by
      rw [div_le_div_iff₀ two_pos hpos, hhalf]
      have : (2 : ℚ) ^ d ≤ r := by exact_mod_cast h
      linarith
    rw [roundEven_of_sticky (by push_cast; linarith), roundEven_of_gt (by linarith), hfloor, hy]

theorem two_le_regimeLen (k : Int) : 2 ≤ regimeLen k := by
  unfold regimeLen
  split <;> omega

/-- The string without its zeros, R, e and F in a row (R164). -/
def stringBits (c : Config) (T : Int) (L F : Nat) : Nat := (regimeCode (encK c T) * 2 ^ c.E + encE c T) * 2 ^ L + F

theorem place_eq_stringBits (c : Config) (T : Int) (L F : Nat) :
    place c T (F / 2 ^ L) = stringBits c T L F / 2 ^ stringLen c (encK c T) L := by
  unfold place stringBits stringLen
  push_cast
  field_simp
  ring

/-- With at least FB_MAX + 1 fraction bits the string reaches past the last kept bit. -/
theorem W_le_stringLen {c : Config} {L : Nat} (h : c.FB_MAX + 1 ≤ L) (k : Int) : c.W ≤ stringLen c k L := by
  have := two_le_regimeLen k
  unfold Config.FB_MAX at h
  unfold stringLen
  omega

/-- Settles O48: the kept bits and the round bit are among the given ones, so the tail is a nonzero rest below them. -/
theorem stickyStandsForEveryTail : Obligations.StickyStandsForEveryTail := by
  intro c s T L F n g st hL hlen hF hg hgn
  have hw : 1 ≤ c.W := by have := hL.1; omega
  obtain ⟨d, hd⟩ := Nat.exists_eq_add_of_le (W_le_stringLen hlen (encK c T))
  have hpow : (2 : ℚ) ^ stringLen c (encK c T) L = 2 ^ (c.W - 1) * 2 ^ (d + 1) := by
    rw [hd, ← pow_add]; congr 1; omega
  have hgiven : 2 ^ (c.W - 1) * place c T (F / 2 ^ L) = stringBits c T L F / (2 ^ (d + 1) : Nat) := by
    rw [place_eq_stringBits, hpow]; push_cast; field_simp
  have hnext : 2 ^ (c.W - 1) * place c T ((F + 1 : Nat) / 2 ^ L) =
      (stringBits c T L F + 1 : Nat) / (2 ^ (d + 1) : Nat) := by
    rw [place_eq_stringBits, hpow]; unfold stringBits; push_cast; field_simp; ring
  have hlo : (F : ℚ) / 2 ^ L < (F * 2 ^ n + g : Nat) / 2 ^ (L + n) := by
    rw [div_lt_div_iff₀ (by positivity) (by positivity), pow_add]
    exact_mod_cast (by nlinarith [Nat.two_pow_pos L] : F * (2 ^ L * 2 ^ n) < (F * 2 ^ n + g) * 2 ^ L)
  have hhi : ((F * 2 ^ n + g : Nat) : ℚ) / 2 ^ (L + n) < (F + 1 : Nat) / 2 ^ L := by
    rw [div_lt_div_iff₀ (by positivity) (by positivity), pow_add]
    exact_mod_cast (by nlinarith [Nat.two_pow_pos L] : (F * 2 ^ n + g) * 2 ^ L < (F + 1) * (2 ^ L * 2 ^ n))
  have hround : roundEven (2 ^ (c.W - 1) * place c T (F / 2 ^ L)) true =
      roundEven (2 ^ (c.W - 1) * place c T ((F * 2 ^ n + g : Nat) / 2 ^ (L + n))) st := by
    rw [hgiven]
    refine roundEven_sticky_eq st ?_ ?_
    · rw [← hgiven]
      exact mul_lt_mul_of_pos_left ((isScale_place c).lt_of_lt T hlo) (by positivity)
    · rw [← hnext]
      exact mul_lt_mul_of_pos_left ((isScale_place c).lt_of_lt T hhi) (by positivity)
  rw [positEncode_of_no_flag, positEncode_of_no_flag, encMagnitude_eq hw, encMagnitude_eq hw, hround]

end Sys2Proof.Proofs

/-! The encoder's result is the nearest pattern where the cut is in the fraction (43_value_encoder.md R169). -/

namespace Sys2Proof.Proofs

open Sys2Proof.Machine

/-! The real of a field, without its sign. -/

/-- The value of the field M as a positive pattern (R148). -/
def fieldReal (c : Config) (M : Nat) : ℚ :=
  scaled (partsOf c false M).T ((partsOf c false M).f / 2 ^ (partsOf c false M).nf)

theorem value_partsOf (c : Config) (s : Bool) (M : Nat) : (partsOf c s M).value = signFactor s * fieldReal c M :=
  mul_assoc _ _ _

/-- A field's real is on the side of another real on which the field is of that real's place. -/
theorem fieldReal_le_iff {c : Config} {M : Nat} (hw : 2 ≤ c.W) (hM : IsField c M) {T : Int} {u : ℚ} (hu : 0 ≤ u)
    (hu1 : u ≤ 1) : (fieldReal c M ≤ scaled T u ↔ (M : ℚ) ≤ 2 ^ (c.W - 1) * place c T u) ∧
      (scaled T u ≤ fieldReal c M ↔ 2 ^ (c.W - 1) * place c T u ≤ (M : ℚ)) := by
  obtain ⟨ht, ht1⟩ := fraction_range (partsOf_f_lt c false M)
  have hpos : (0 : ℚ) < 2 ^ (c.W - 1) := by positivity
  rw [← place_partsOf hw hM false, mul_le_mul_iff_right₀ hpos, mul_le_mul_iff_right₀ hpos]
  exact ⟨isScale_scaled.le_iff_le (isScale_place c) ht ht1 hu hu1,
    isScale_scaled.ge_iff_ge (isScale_place c) ht ht1 hu hu1⟩

/-- A field whose place is that of a real has that real. -/
theorem fieldReal_eq {c : Config} {M : Nat} (hw : 2 ≤ c.W) (hM : IsField c M) {T : Int} {u : ℚ} (hu : 0 ≤ u)
    (hu1 : u ≤ 1) (h : 2 ^ (c.W - 1) * place c T u = M) : fieldReal c M = scaled T u := by
  obtain ⟨hle, hge⟩ := fieldReal_le_iff hw hM (T := T) hu hu1
  exact le_antisymm (hle.2 h.ge) (hge.2 h.le)

theorem fieldReal_inj {c : Config} {M N : Nat} (hw : 2 ≤ c.W) (hM : IsField c M) (hN : IsField c N)
    (h : fieldReal c M = fieldReal c N) : M = N := by
  obtain ⟨ht, ht1⟩ := fraction_range (partsOf_f_lt c false N)
  obtain ⟨hle, hge⟩ := fieldReal_le_iff hw hM (T := (partsOf c false N).T) ht ht1.le
  rw [place_partsOf hw hN false] at hle hge
  exact_mod_cast le_antisymm (hle.1 h.le) (hge.1 h.ge)

theorem fieldReal_pos (c : Config) (M : Nat) : 0 < fieldReal c M := by unfold fieldReal scaled; positivity

/-! Nearest by the discarded part. -/

theorem roundEven_eq_or (y : ℚ) (st : Bool) : roundEven y st = ⌊y⌋₊ ∨ roundEven y st = ⌊y⌋₊ + 1 := by
  unfold roundEven
  split
  · exact .inr rfl
  · exact .inl rfl

/-- Between two neighbours v0 and v1 that stand a step δ apart, y's rounding takes the one that x is nearer to, when x
divides the step as y does its unit. -/
theorem roundEven_nearest {y x v0 v1 δ v z : ℚ} (hδ : 0 < δ) (h0 : v0 = x - δ * Int.fract y)
    (h1 : v1 = x + δ * (1 - Int.fract y)) (hdown : roundEven y false = ⌊y⌋₊ → v = v0)
    (hup : roundEven y false = ⌊y⌋₊ + 1 → v = v1) (hz : z ≤ v0 ∨ v1 ≤ z) :
    |v - x| ≤ |z - x| ∧ (|v - x| = |z - x| → z ≠ v → roundEven y false % 2 = 0) := by
  have hf := Int.fract_nonneg y
  have hf1 := Int.fract_lt_one y
  have habs0 : |v0 - x| = δ * Int.fract y := by rw [h0, sub_sub_cancel_left, abs_neg, abs_of_nonneg (by positivity)]
  have habs1 : |v1 - x| = δ * (1 - Int.fract y) := by
    rw [h1, add_sub_cancel_left, abs_of_nonneg (mul_nonneg hδ.le (by linarith))]
  rcases lt_trichotomy (Int.fract y) (1 / 2) with h | h | h
  · rw [hdown (roundEven_of_lt h false), habs0]
    have hlt : δ * Int.fract y < δ * (1 - Int.fract y) := mul_lt_mul_of_pos_left (by linarith) hδ
    rcases hz with hz | hz
    · rw [abs_of_nonpos (by nlinarith : z - x ≤ 0)]
      exact ⟨by linarith, fun heq hne => absurd (by linarith) hne⟩
    · rw [abs_of_nonneg (by nlinarith : 0 ≤ z - x)]
      exact ⟨by linarith, fun heq => by linarith⟩
  · have hv : |v - x| = δ * (1 / 2) := by
      rcases roundEven_eq_or y false with hr | hr
      · rw [hdown hr, habs0, h]
      · rw [hup hr, habs1, h]; ring
    rw [hv]
    refine ⟨?_, fun _ _ => roundEven_of_tie h⟩
    rw [h] at h0 h1
    rcases hz with hz | hz
    · rw [abs_of_nonpos (by nlinarith : z - x ≤ 0)]; linarith
    · rw [abs_of_nonneg (by nlinarith : 0 ≤ z - x)]; linarith
  · rw [hup (roundEven_of_gt h false), habs1]
    have hlt : δ * (1 - Int.fract y) < δ * Int.fract y := mul_lt_mul_of_pos_left (by linarith) hδ
    rcases hz with hz | hz
    · rw [abs_of_nonpos (by nlinarith : z - x ≤ 0)]
      exact ⟨by linarith, fun heq => by linarith⟩
    · rw [abs_of_nonneg (by nlinarith : 0 ≤ z - x)]
      exact ⟨by linarith, fun heq hne => absurd (by linarith) hne⟩

/-! The cut in the fraction. -/

/-- Where the regime and the exponent fit, n fraction bits are kept, and the place moves evenly with the fraction. -/
theorem place_of_fits {c : Config} {k : Int} {e n : Nat} (he : e < 2 ^ c.E) (hn : regimeLen k + c.E + n = c.W - 1)
    (t : ℚ) : 2 ^ (c.W - 1) * place c (k * 2 ^ c.E + e) t = ((regimeCode k * 2 ^ c.E + e : Nat) + t) * 2 ^ n := by
  rw [place_mul_add k he, ← hn, pow_add, pow_add]
  push_cast
  field_simp
  ring

/-- The fractions u and u + 1 / 2^n at which the kept n bits of t, and the next, stand. -/
theorem exists_neighbours (Q n : Nat) {t : ℚ} (ht : 0 ≤ t) (ht1 : t < 1) : ∃ u : ℚ, 0 ≤ u ∧ u + 1 / 2 ^ n ≤ 1 ∧
    (Q + u) * 2 ^ n = (⌊(Q + t) * 2 ^ n⌋₊ : ℚ) ∧ u = t - Int.fract ((Q + t) * 2 ^ n) / 2 ^ n := by
  have hpos : (0 : ℚ) < 2 ^ n := by positivity
  have hy0 : 0 ≤ (Q + t) * 2 ^ n := by positivity
  have hyf := floor_add_fract hy0
  have hle : Q * 2 ^ n ≤ ⌊(Q + t) * 2 ^ n⌋₊ := Nat.le_floor (by push_cast; nlinarith)
  have hlt : ⌊(Q + t) * 2 ^ n⌋₊ < (Q + 1) * 2 ^ n := (Nat.floor_lt hy0).2 (by push_cast; nlinarith)
  replace hle : (Q : ℚ) * 2 ^ n ≤ ⌊(Q + t) * 2 ^ n⌋₊ := by exact_mod_cast hle
  replace hlt : (⌊(Q + t) * 2 ^ n⌋₊ : ℚ) + 1 ≤ (Q + 1) * 2 ^ n := by exact_mod_cast hlt
  have hu : (Q + (t - Int.fract ((Q + t) * 2 ^ n) / 2 ^ n)) * 2 ^ n = (⌊(Q + t) * 2 ^ n⌋₊ : ℚ) := by
    rw [← add_sub_assoc, sub_mul, div_mul_cancel₀ _ hpos.ne']
    linarith
  refine ⟨_, ?_, ?_, hu, rfl⟩
  · rw [← hu] at hle
    linarith [le_of_mul_le_mul_right hle hpos]
  · rw [← hu, ← div_mul_cancel₀ (1 : ℚ) hpos.ne', ← add_mul] at hlt
    rw [div_mul_cancel₀ (1 : ℚ) hpos.ne'] at hlt
    linarith [le_of_mul_le_mul_right hlt hpos]

theorem encMagnitude_eq_roundEven {c : Config} (hw : 2 ≤ c.W) {T : Int} (L F : Nat) (st : Bool)
    (hlo : -((c.W : Int) - 2) ≤ encK c T) (hhi : encK c T ≤ (c.W : Int) - 2) :
    encMagnitude c T L F st = roundEven (2 ^ (c.W - 1) * place c T (F / 2 ^ L)) st := by
  have hK := KMAX_cast hw
  rw [encMagnitude_eq (by omega), if_neg (by omega), if_neg (by omega)]

/-- The encoder's field is nearest in its real to the input's, and even where another is equally near. -/
theorem encMagnitude_nearest {c : Config} (hw : 2 ≤ c.W) {k : Int} {e n L F : Nat} (hF : F < 2 ^ L) (he : e < 2 ^ c.E)
    (hlo : -((c.W : Int) - 2) ≤ k) (hhi : k ≤ (c.W : Int) - 2) (hn : regimeLen k + c.E + n = c.W - 1) {M : Nat}
    (hM : IsField c M) :
    let x := scaled (k * 2 ^ c.E + e) (F / 2 ^ L)
    let P := encMagnitude c (k * 2 ^ c.E + e) L F false
    |fieldReal c P - x| ≤ |fieldReal c M - x| ∧ (|fieldReal c P - x| = |fieldReal c M - x| → M ≠ P → P % 2 = 0) := by
  intro x P
  have hPM : IsField c P := encMagnitude_isField hw _ hF _
  obtain ⟨ht, ht1⟩ := fraction_range hF
  obtain ⟨u, hu0, hu1, hu, hut⟩ := exists_neighbours (regimeCode k * 2 ^ c.E + e) n ht ht1
  have hP : P = roundEven (2 ^ (c.W - 1) * place c (k * 2 ^ c.E + e) (F / 2 ^ L)) false :=
    encMagnitude_eq_roundEven hw L F false (by rwa [encK_mul_add c k he]) (by rwa [encK_mul_add c k he])
  rw [place_of_fits he hn] at hP
  set y : ℚ := ((regimeCode k * 2 ^ c.E + e : Nat) + F / 2 ^ L) * 2 ^ n
  have hstep : (0 : ℚ) < 1 / 2 ^ n := by positivity
  have hlow : 2 ^ (c.W - 1) * place c (k * 2 ^ c.E + e) u = (⌊y⌋₊ : Nat) := (place_of_fits he hn u).trans hu
  have hhigh : 2 ^ (c.W - 1) * place c (k * 2 ^ c.E + e) (u + 1 / 2 ^ n) = (⌊y⌋₊ + 1 : Nat) := by
    rw [place_of_fits he hn, ← add_assoc, add_mul, hu, Nat.cast_succ]
    field_simp
  have hM' : fieldReal c M ≤ scaled (k * 2 ^ c.E + e) u ∨ scaled (k * 2 ^ c.E + e) (u + 1 / 2 ^ n) ≤ fieldReal c M := by
    rw [(fieldReal_le_iff hw hM hu0 (by linarith)).1, (fieldReal_le_iff hw hM (by linarith) hu1).2, hlow, hhigh,
      Nat.cast_le, Nat.cast_le]
    exact Nat.lt_or_ge M (⌊y⌋₊ + 1) |>.imp_left Nat.le_of_lt_succ
  have hnear := roundEven_nearest (y := y) (x := x) (v := fieldReal c P) (δ := 2 ^ (k * 2 ^ c.E + e : Int) / 2 ^ n)
    (by positivity) (by simp only [x, scaled, hut]; ring) (by simp only [x, scaled, hut]; ring)
    (fun hr => fieldReal_eq hw hPM hu0 (by linarith) (by rw [hP, hr, hlow]))
    (fun hr => fieldReal_eq hw hPM (by linarith) hu1 (by rw [hP, hr, hhigh])) hM'
  refine ⟨hnear.1, fun heq hne => ?_⟩
  rw [hP]
  exact hnear.2 heq fun h => hne (fieldReal_inj hw hM hPM h)

theorem abs_signFactor_mul_sub (s : Bool) (a b : ℚ) : |signFactor s * a - signFactor s * b| = |a - b| := by
  cases s with
  | false => simp [signFactor]
  | true => simp only [signFactor, if_true, neg_one_mul, neg_sub_neg, abs_sub_comm]

/-- The sign keeps the last bit. -/
theorem applySign_mod_two {c : Config} {M : Nat} (hw : 2 ≤ c.W) (hM : IsField c M) (s : Bool) :
    applySign c s M % 2 = M % 2 := by
  have hlt : M < 2 ^ c.W := hM.2.trans (Nat.pow_lt_pow_right one_lt_two (by omega))
  have heven : 2 ^ c.W = 2 * 2 ^ (c.W - 1) := by rw [← pow_succ', Nat.sub_add_cancel (by omega)]
  rw [applySign_of_isField hw hM]
  unfold Bits
  cases s with
  | false => rfl
  | true => simp only [if_true]; omega

/-- Settles O49. -/
theorem encodeIsNearestWhenTheCutIsInTheFraction : Obligations.EncodeIsNearestWhenTheCutIsInTheFraction := by
  intro c s k e L F hL hF he hlo hhi hfits x r
  obtain ⟨n, hn⟩ := Nat.exists_eq_add_of_le hfits
  have hPM : IsField c (encMagnitude c (k * 2 ^ c.E + e) L F false) := encMagnitude_isField hL.1 _ hF _
  have hx : x = signFactor s * scaled (k * 2 ^ c.E + e) (F / 2 ^ L) := mul_assoc _ _ _
  refine ⟨_, value_applySign hL.1 hPM s, fun p z hp hp0 hsign hz => ?_⟩
  have hnar : p ≠ c.NAR := by
    rintro rfl
    rw [value_NAR] at hz
    cases hz
  obtain ⟨s', M, hM, rfl⟩ := exists_applySign hL.1 hp hp0 hnar
  obtain rfl : s' = s := (testBit_applySign hL.1 hM s').symm.trans hsign
  rw [value_applySign hL.1 hM] at hz
  cases hz
  obtain ⟨hle, heven⟩ := encMagnitude_nearest hL.1 hF he hlo hhi hn.symm hM
  simp only [value_partsOf, hx, abs_signFactor_mul_sub]
  refine ⟨hle, fun heq hne => ?_⟩
  rw [show r = applySign c s' (encMagnitude c (k * 2 ^ c.E + e) L F false) from rfl, applySign_mod_two hL.1 hPM]
  exact heven heq fun h => hne (congrArg _ h)

end Sys2Proof.Proofs

/-! The adder and subtractor (44_normalizer.md R185, 46_adder_subtractor.md R203 to R212). -/

namespace Sys2Proof.Proofs

open Sys2Proof.Machine

/-- Settles O52: a shift that is not too long moves every bit of the normalized fraction down. -/
theorem denormOfNormPlacesTheHiddenBit : Obligations.DenormOfNormPlacesTheHiddenBit := by
  intro n w sh hw hsh x
  have hlt : sh < w - 1 := by omega
  have hx : x = Machine.normalize n w / 2 ^ sh := if_neg hlt.not_ge
  refine ⟨?_, ?_, fun j hj => ?_⟩
  · rw [hx, Nat.div_lt_iff_lt_mul (Nat.two_pow_pos _), ← pow_add, Nat.sub_add_cancel (by omega)]
    exact normalize_lt n (by omega)
  · rw [testBit_denormalize_of_lt _ hlt, Nat.sub_add_cancel (by omega), testBit_normalize_top]
  · rw [testBit_denormalize_of_lt _ hlt, testBit_normalize_of_lt _ (by omega)]
    congr 1
    omega

/-! Mantissas (R203). -/

theorem two_le_MW {c : Config} (hL : c.Legal) : 2 ≤ c.MW := by
  obtain ⟨-, -, hMW, -⟩ := hL
  unfold Config.FBW at hMW
  omega

theorem nf_le_MW_pred {c : Config} (hL : c.Legal) (s : Bool) (M : Nat) : (partsOf c s M).nf ≤ c.MW - 1 := by
  have := nf_le_FBW hL s M
  obtain ⟨-, -, hMW, -⟩ := hL
  omega

/-- The fraction left-aligned below the hidden bit: with room for it, no bit of it is dropped. -/
theorem normalize_left_aligned {f nf w : Nat} (hw : 1 ≤ w) (hnf : nf ≤ w - 1) (hf : f < 2 ^ nf) :
    Machine.normalize (f * 2 ^ (w - nf)) w = 2 ^ (w - 1) + f * 2 ^ (w - 1 - nf) := by
  have hlt : f * 2 ^ (w - 1 - nf) < 2 ^ (w - 1) := by
    calc _ < 2 ^ nf * 2 ^ (w - 1 - nf) := Nat.mul_lt_mul_of_pos_right hf (Nat.two_pow_pos _)
      _ = 2 ^ (w - 1) := by rw [← pow_add, Nat.add_sub_cancel' hnf]
  rw [Machine.normalize, bitsAt, show w - nf = w - 1 - nf + 1 by omega, pow_succ, ← mul_assoc, pow_one,
    Nat.mul_div_cancel _ two_pos, Nat.mod_eq_of_lt hlt]

theorem mantissa_M {c : Config} (hL : c.Legal) (s : Bool) (M : Nat) : (mantissa c (partsOf c s M)).M =
    2 ^ (c.MW - 1) + (partsOf c s M).f * 2 ^ (c.MW - 1 - (partsOf c s M).nf) :=
  normalize_left_aligned (one_le_MW_of_legal hL) (nf_le_MW_pred hL s M) (partsOf_f_lt c s M)

/-- A mantissa has its hidden bit and MW bits. -/
theorem mantissa_M_range {c : Config} (hL : c.Legal) (x : RealParts) :
    2 ^ (c.MW - 1) ≤ (mantissa c x).M ∧ (mantissa c x).M < 2 ^ c.MW :=
  ⟨Nat.le_add_right _ _, normalize_lt _ (one_le_MW_of_legal hL)⟩

/-- The real that an operand's sign, scale and mantissa stand for. -/
def alignedReal (c : Config) (a : Aligned) : ℚ := signFactor a.s * (2 ^ a.T * (a.M / 2 ^ (c.MW - 1)))

theorem alignedReal_mantissa {c : Config} (hL : c.Legal) (s : Bool) (M : Nat) :
    alignedReal c (mantissa c (partsOf c s M)) = (partsOf c s M).value := by
  have hpow : (2 : ℚ) ^ (c.MW - 1) = 2 ^ (partsOf c s M).nf * 2 ^ (c.MW - 1 - (partsOf c s M).nf) := by
    rw [← pow_add, Nat.add_sub_cancel' (nf_le_MW_pred hL s M)]
  rw [alignedReal, mantissa_M hL, RealParts.value, mul_assoc]
  simp only [mantissa]
  push_cast
  rw [hpow]
  field_simp

/-! Renormalizing (R206, R207). -/

theorem renormalize_eq {c : Config} (hMW : 1 ≤ c.MW) (sr : Bool) (TB : Int) {S q : Nat} (hlo : 2 ^ q ≤ S)
    (hhi : S < 2 ^ (q + 1)) : renormalize c sr TB S =
      positEncode c { s := sr, T := TB + q - ((c.MW : Int) - 1), L := q, F := S - 2 ^ q } := by
  have hq : leadingOne S = q := (Nat.log2_eq_iff (by have := Nat.two_pow_pos q; omega)).2 ⟨hlo, hhi⟩
  have hF : bitsAt S 0 q = S - 2 ^ q := by
    rw [bitsAt_zero, Nat.mod_eq_sub_mod hlo, Nat.mod_eq_of_lt (by rw [pow_succ] at hhi; omega)]
  simp only [renormalize, hq, hF, Nat.cast_sub hMW, Nat.cast_one]

theorem renormalize_eq_applySign (c : Config) (sr : Bool) (TB : Int) (S : Nat) :
    renormalize c sr TB S = applySign c sr (encMagnitude c (TB + (leadingOne S : Nat) - (c.MW - 1 : Nat)) (leadingOne S)
      (bitsAt S 0 (leadingOne S)) false) := rfl

theorem renormalize_ne_zero {c : Config} (hw : 2 ≤ c.W) (sr : Bool) (TB : Int) (S : Nat) :
    renormalize c sr TB S ≠ 0 := by
  rw [renormalize_eq_applySign]
  exact applySign_ne_zero hw (encMagnitude_isField hw _ (bitsAt_lt _ _ _) _) sr

theorem renormalize_not {c : Config} (hw : 2 ≤ c.W) (sr : Bool) (TB : Int) (S : Nat) :
    renormalize c (!sr) TB S = positNeg c (renormalize c sr TB S) := by
  rw [renormalize_eq_applySign, renormalize_eq_applySign,
    positNeg_applySign hw (encMagnitude_isField hw _ (bitsAt_lt _ _ _) _)]

/-- A nonzero sum is encoded as any input that stands for it. -/
theorem renormalize_eq_of_real {c : Config} (hL : c.Legal) (sr : Bool) {TB T : Int} {S L F : Nat} (hS : S ≠ 0)
    (hF : F < 2 ^ L) (h : (2 : ℚ) ^ TB * (S / 2 ^ (c.MW - 1)) = scaled T (F / 2 ^ L)) :
    renormalize c sr TB S = positEncode c { s := sr, T := T, L := L, F := F } := by
  obtain ⟨hlo, hhi⟩ := leadingOne_spec hS
  have hMW := one_le_MW_of_legal hL
  rw [renormalize_eq hMW sr TB hlo hhi]
  refine oneRealHasOnePattern c sr _ T _ _ L F hL (by rw [pow_succ] at hhi; omega) hF ?_
  have hscale : TB + (leadingOne S : Nat) - ((c.MW : Int) - 1) =
      TB + (leadingOne S : Nat) - (c.MW - 1 : Nat) := by omega
  rw [scaled] at h
  rw [← h, Nat.cast_sub hlo, hscale, zpow_sub₀ two_ne_zero, zpow_add₀ two_ne_zero, zpow_natCast, zpow_natCast]
  push_cast
  field_simp
  ring

/-! Combining (R204, R205). -/

theorem denormalize_zero (n : Nat) {w : Nat} (hw : 2 ≤ w) : denormalize n 0 w = n := by
  rw [denormalize, if_neg (by omega), pow_zero, Nat.div_one]

/-- A shift by at least one leaves less than the hidden bit. -/
theorem denormalize_lt {n sh w : Nat} (hn : n < 2 ^ w) (hsh : 0 < sh) : denormalize n sh w < 2 ^ (w - 1) := by
  unfold denormalize
  split
  · exact Nat.two_pow_pos _
  · calc n / 2 ^ sh ≤ n / 2 ^ 1 := Nat.div_le_div_left (Nat.pow_le_pow_right two_pos hsh) (by norm_num)
      _ < 2 ^ (w - 1) := by
        rw [Nat.div_lt_iff_lt_mul (by norm_num), ← pow_add, Nat.sub_add_cancel (by omega)]
        exact hn

section
variable (c : Config) {big small : Aligned}

/-- The smaller-scale operand's mantissa at the scale of the other (R204). -/
def alignedTo (big small : Aligned) : Nat := denormalize small.M (big.T - small.T).toNat c.MW

theorem combine_of_eq (h : big.s = small.s) :
    combine c big small = renormalize c big.s big.T (big.M + alignedTo c big small) := if_pos h

theorem combine_of_lt (h : big.s ≠ small.s) (hlt : alignedTo c big small < big.M) :
    combine c big small = renormalize c big.s big.T (big.M - alignedTo c big small) :=
  (if_neg h).trans (if_pos hlt)

theorem combine_of_gt (h : big.s ≠ small.s) (hlt : big.M < alignedTo c big small) :
    combine c big small = renormalize c small.s big.T (alignedTo c big small - big.M) :=
  (if_neg h).trans ((if_neg hlt.not_gt).trans (if_pos hlt))

theorem combine_of_cancel (h : big.s ≠ small.s) (heq : big.M = alignedTo c big small) : combine c big small = 0 :=
  (if_neg h).trans ((if_neg heq.le.not_gt).trans (if_neg heq.ge.not_gt))

end

theorem alignedTo_of_eq {c : Config} (hMW : 2 ≤ c.MW) {big small : Aligned} (h : big.T = small.T) :
    alignedTo c big small = small.M := by
  rw [alignedTo, h, sub_self, Int.toNat_zero, denormalize_zero _ hMW]

/-- Of two operands of one scale either may be the first. -/
theorem combine_comm_of_eq {c : Config} (hMW : 2 ≤ c.MW) {a b : Aligned} (h : a.T = b.T) :
    combine c a b = combine c b a := by
  have hab := alignedTo_of_eq hMW h
  have hba := alignedTo_of_eq hMW h.symm
  by_cases hs : a.s = b.s
  · rw [combine_of_eq c hs, combine_of_eq c hs.symm, hab, hba, hs, h, Nat.add_comm]
  · rcases lt_trichotomy a.M b.M with hlt | heq | hgt
    · rw [combine_of_gt c hs (hab ▸ hlt), combine_of_lt c (Ne.symm hs) (hba ▸ hlt), hab, hba, h]
    · rw [combine_of_cancel c hs (hab ▸ heq), combine_of_cancel c (Ne.symm hs) (hba ▸ heq.symm)]
    · rw [combine_of_lt c hs (hab ▸ hgt), combine_of_gt c (Ne.symm hs) (hba ▸ hgt), hab, hba, h]

theorem addReal_of_le {c : Config} {a b : Aligned} (h : b.T ≤ a.T) : addReal c a b = combine c a b := if_pos h

theorem addReal_comm {c : Config} (hMW : 2 ≤ c.MW) (a b : Aligned) : addReal c a b = addReal c b a := by
  rcases lt_trichotomy a.T b.T with h | h | h
  · rw [addReal_of_le h.le, addReal, if_neg h.not_ge]
  · rw [addReal_of_le h.ge, addReal_of_le h.le, combine_comm_of_eq hMW h]
  · rw [addReal_of_le h.le, addReal, if_neg h.not_ge]

/-- The operand with the other sign. -/
def negated (a : Aligned) : Aligned := { a with s := !a.s }

theorem mantissa_not (c : Config) (s : Bool) (M : Nat) :
    mantissa c (partsOf c (!s) M) = negated (mantissa c (partsOf c s M)) := rfl

theorem combine_negated {c : Config} (hw : 2 ≤ c.W) (big small : Aligned) :
    combine c (negated big) (negated small) = positNeg c (combine c big small) := by
  have hm : alignedTo c (negated big) (negated small) = alignedTo c big small := rfl
  by_cases hs : big.s = small.s
  · rw [combine_of_eq c hs, combine_of_eq c (congrArg (!·) hs), ← renormalize_not hw]
    rfl
  · have hs' : (negated big).s ≠ (negated small).s := fun h => hs (by simpa [negated] using h)
    rcases lt_trichotomy big.M (alignedTo c big small) with h | h | h
    · rw [combine_of_gt c hs h, combine_of_gt c hs' h, ← renormalize_not hw]
      rfl
    · rw [combine_of_cancel c hs h, combine_of_cancel c hs' h, positNeg_zero]
    · rw [combine_of_lt c hs h, combine_of_lt c hs' h, ← renormalize_not hw]
      rfl

theorem addReal_negated {c : Config} (hw : 2 ≤ c.W) (a b : Aligned) :
    addReal c (negated a) (negated b) = positNeg c (addReal c a b) := by
  unfold addReal
  rw [combine_negated hw, combine_negated hw]
  exact (apply_ite (positNeg c) _ _ _).symm

/-- The only sum with the pattern 0 is the exact cancellation. -/
theorem combine_eq_zero {c : Config} (hw : 2 ≤ c.W) {big small : Aligned} (h : combine c big small = 0) :
    big.s ≠ small.s ∧ big.M = alignedTo c big small := by
  by_cases hs : big.s = small.s
  · rw [combine_of_eq c hs] at h
    exact absurd h (renormalize_ne_zero hw _ _ _)
  · refine ⟨hs, ?_⟩
    rcases lt_trichotomy big.M (alignedTo c big small) with hlt | heq | hgt
    · rw [combine_of_gt c hs hlt] at h
      exact absurd h (renormalize_ne_zero hw _ _ _)
    · exact heq
    · rw [combine_of_lt c hs hgt] at h
      exact absurd h (renormalize_ne_zero hw _ _ _)

theorem signFactor_of_ne {s s' : Bool} (h : s ≠ s') : signFactor s' = -signFactor s := by
  rw [← signFactor_not, Bool.eq_not_of_ne h.symm]

/-- A shifted mantissa is below every hidden bit, so operands that cancel have one scale and one mantissa (R208). -/
theorem alignedReal_add_of_combine_eq_zero {c : Config} (hL : c.Legal) {big small : Aligned} (hT : small.T ≤ big.T)
    (hbig : 2 ^ (c.MW - 1) ≤ big.M) (hsmall : small.M < 2 ^ c.MW) (h : combine c big small = 0) :
    alignedReal c big + alignedReal c small = 0 := by
  obtain ⟨hs, hM⟩ := combine_eq_zero hL.1 h
  have hTeq : big.T = small.T := by
    by_contra hne
    have : alignedTo c big small < 2 ^ (c.MW - 1) := denormalize_lt hsmall (by omega)
    omega
  rw [alignedTo_of_eq (two_le_MW hL) hTeq] at hM
  rw [alignedReal, alignedReal, hM, hTeq, signFactor_of_ne hs]
  ring

theorem alignedReal_add_of_addReal_eq_zero {c : Config} (hL : c.Legal) (x y : RealParts)
    (h : addReal c (mantissa c x) (mantissa c y) = 0) :
    alignedReal c (mantissa c x) + alignedReal c (mantissa c y) = 0 := by
  obtain ⟨hx, hx'⟩ := mantissa_M_range hL x
  obtain ⟨hy, hy'⟩ := mantissa_M_range hL y
  rcases le_total (mantissa c y).T (mantissa c x).T with hT | hT
  · rw [addReal_of_le hT] at h
    exact alignedReal_add_of_combine_eq_zero hL hT hx hy' h
  · rw [addReal_comm (two_le_MW hL), addReal_of_le hT] at h
    rw [add_comm]
    exact alignedReal_add_of_combine_eq_zero hL hT hy hx' h

/-! Sums of patterns. -/

theorem positAdd_of_real {c : Config} {a b : Bits} {x y : RealParts} (ha : positDecode c a = .real x)
    (hb : positDecode c b = .real y) : positAdd c a b = addReal c (mantissa c x) (mantissa c y) := by
  rw [positAdd, ha, hb]

theorem positAdd_applySign {c : Config} (hw : 2 ≤ c.W) {M N : Nat} (hM : IsField c M) (hN : IsField c N) (s s' : Bool) :
    positAdd c (applySign c s M) (applySign c s' N) =
      addReal c (mantissa c (partsOf c s M)) (mantissa c (partsOf c s' N)) :=
  positAdd_of_real (positDecode_applySign hw hM s) (positDecode_applySign hw hN s')

theorem positAdd_zero (c : Config) (a : Bits) : positAdd c a 0 = a := by
  by_cases h : a = c.NAR
  · rw [h, positAdd_NAR_left]
  · exact positAdd_zero_right h

theorem zero_positAdd (c : Config) (a : Bits) : positAdd c 0 a = a := by
  by_cases h : a = c.NAR
  · rw [h, positAdd_NAR_right]
  · exact positAdd_zero_left h

theorem positAdd_comm {c : Config} {a b : Nat} (hL : c.Legal) (ha : a < 2 ^ c.W) (hb : b < 2 ^ c.W) :
    positAdd c a b = positAdd c b a := by
  obtain rfl | rfl | ⟨s, M, hM, rfl⟩ := pattern_cases hL.1 ha
  · rw [zero_positAdd, positAdd_zero]
  · rw [positAdd_NAR_left, positAdd_NAR_right]
  obtain rfl | rfl | ⟨s', N, hN, rfl⟩ := pattern_cases hL.1 hb
  · rw [zero_positAdd, positAdd_zero]
  · rw [positAdd_NAR_left, positAdd_NAR_right]
  · rw [positAdd_applySign hL.1 hM hN, positAdd_applySign hL.1 hN hM, addReal_comm (two_le_MW hL)]

/-- The exact additive inverse: one scale, one mantissa, two signs (R210). -/
theorem positAdd_positNeg {c : Config} {a : Nat} (hL : c.Legal) (ha : a < 2 ^ c.W) (hnar : a ≠ c.NAR) :
    positAdd c a (positNeg c a) = 0 := by
  obtain rfl | rfl | ⟨s, M, hM, rfl⟩ := pattern_cases hL.1 ha
  · rfl
  · exact absurd rfl hnar
  · rw [positNeg_applySign hL.1 hM, positAdd_applySign hL.1 hM hM, mantissa_not]
    generalize mantissa c (partsOf c s M) = m
    have hT : (negated m).T ≤ m.T := le_rfl
    rw [addReal_of_le hT]
    exact combine_of_cancel c (Bool.not_ne_self m.s).symm (alignedTo_of_eq (two_le_MW hL) rfl).symm

/-- Settles O59: the choice of the operand to shift does not matter, and opposite reals cancel without a shift. -/
theorem additionLaws : Obligations.AdditionLaws := fun c a _ hL ha hb =>
  ⟨positAdd_comm hL ha hb, positAdd_zero c a, zero_positAdd c a, positAdd_NAR_left c a, positAdd_NAR_right c a,
    positAdd_positNeg hL ha⟩

/-- Settles O57: the model's mantissas, shift, three cases of the signs and renormalization, in either order. -/
theorem addAlignsCombinesAndEncodes : Obligations.AddAlignsCombinesAndEncodes := by
  intro c a b x y MB MS d m hL ha hb hx hy hT hMB hMS hd hm
  obtain ⟨s, M, -, -, rfl⟩ := exists_applySign_of_real hL.1 ha hx
  obtain ⟨s', N, -, -, rfl⟩ := exists_applySign_of_real hL.1 hb hy
  set big := mantissa c (partsOf c s M)
  set small := mantissa c (partsOf c s' N)
  have hbigM : big.M = MB := (mantissa_M hL s M).trans hMB.symm
  have hto : alignedTo c big small = m := by
    rw [alignedTo, mantissa_M hL, ← hMS, hm, hd]
    rfl
  have hsum : positAdd c a b = combine c big small :=
    (positAdd_of_real hx hy).trans (addReal_of_le (show small.T ≤ big.T from hT))
  rw [← positAdd_comm hL ha hb, hsum]
  simp only [and_self]
  refine ⟨fun hs heq => combine_of_cancel c hs (by rw [hbigM, hto, heq]), fun S q sr hlo hhi hcase => ?_⟩
  rw [← renormalize_eq (one_le_MW_of_legal hL) sr _ hlo hhi]
  rcases hcase with ⟨hs, rfl, rfl⟩ | ⟨hs, hlt, rfl, rfl⟩ | ⟨hs, hlt, rfl, rfl⟩
  · rw [combine_of_eq c hs, hto, hbigM]
    rfl
  · rw [combine_of_lt c hs (by rwa [hto, hbigM]), hto, hbigM]
    rfl
  · rw [combine_of_gt c hs (by rwa [hto, hbigM]), hto, hbigM]
    rfl

/-! Values and patterns. -/

theorem scaled_pos (T : Int) {t : ℚ} (ht : 0 ≤ t) : 0 < scaled T t := by unfold scaled; positivity

theorem signFactor_mul_inj {s s' : Bool} {A B : ℚ} (hA : 0 < A) (hB : 0 < B)
    (h : signFactor s * A = signFactor s' * B) : s = s' ∧ A = B := by
  cases s <;> cases s' <;> simp [signFactor] at h ⊢ <;> linarith

theorem value_applySign_eq {c : Config} (hw : 2 ≤ c.W) {M : Nat} (hM : IsField c M) (s : Bool) :
    value c (applySign c s M) = some (signFactor s * fieldReal c M) := by
  rw [value_applySign hw hM, value_partsOf]

theorem signFactor_ne_zero (s : Bool) : signFactor s ≠ 0 := by cases s <;> simp [signFactor]

theorem eq_zero_of_value {c : Config} {p : Nat} (hw : 2 ≤ c.W) (hp : p < 2 ^ c.W) (h : value c p = some 0) : p = 0 := by
  obtain rfl | rfl | ⟨s, M, hM, rfl⟩ := pattern_cases hw hp
  · rfl
  · rw [value_NAR] at h; cases h
  · rw [value_applySign_eq hw hM] at h
    exact absurd (Option.some.inj h) (mul_ne_zero (signFactor_ne_zero s) (fieldReal_pos c M).ne')

/-- A pattern whose value an input stands for is that input's encoding. -/
theorem positEncode_of_value {c : Config} {p : Nat} (hL : c.Legal) (hp : p < 2 ^ c.W) {s : Bool} {T : Int} {L F : Nat}
    (hF : F < 2 ^ L) (h : value c p = some (signFactor s * scaled T (F / 2 ^ L))) :
    positEncode c { s := s, T := T, L := L, F := F } = p := by
  have hpos := scaled_pos T (fraction_range hF).1
  obtain rfl | rfl | ⟨s', M, hM, rfl⟩ := pattern_cases hL.1 hp
  · exact absurd (Option.some.inj h).symm (mul_ne_zero (signFactor_ne_zero s) hpos.ne')
  · rw [value_NAR] at h; cases h
  · rw [value_applySign_eq hL.1 hM] at h
    obtain ⟨rfl, hreal⟩ := signFactor_mul_inj (fieldReal_pos c M) hpos (Option.some.inj h)
    rw [← oneRealHasOnePattern c s' _ T _ _ L F hL (partsOf_f_lt c false M) hF hreal, positEncode_of_no_flag,
      encMagnitude_partsOf hL.1 hM]

/-- One value, one pattern (30_encoding.md R76). -/
theorem value_inj {c : Config} {p q : Nat} (hw : 2 ≤ c.W) (hp : p < 2 ^ c.W) (hq : q < 2 ^ c.W) {v : ℚ}
    (hpv : value c p = some v) (hqv : value c q = some v) : p = q := by
  obtain rfl | rfl | ⟨s, M, hM, rfl⟩ := pattern_cases hw hp
  · cases hpv
    exact (eq_zero_of_value hw hq hqv).symm
  · rw [value_NAR] at hpv; cases hpv
  obtain rfl | rfl | ⟨s', N, hN, rfl⟩ := pattern_cases hw hq
  · cases hqv
    exact eq_zero_of_value hw hp hpv
  · rw [value_NAR] at hqv; cases hqv
  · rw [value_applySign_eq hw hM, ← hqv, value_applySign_eq hw hN] at hpv
    obtain ⟨rfl, hreal⟩ := signFactor_mul_inj (fieldReal_pos c M) (fieldReal_pos c N) (Option.some.inj hpv)
    rw [fieldReal_inj hw hM hN hreal]

/-- Opposite values sum to the pattern 0, at every legal MW. -/
theorem positAdd_eq_zero_of_value {c : Config} {a b : Nat} {va vb : ℚ} (hL : c.Legal) (ha : a < 2 ^ c.W)
    (hb : b < 2 ^ c.W) (hva : value c a = some va) (hvb : value c b = some vb) (h : va + vb = 0) :
    positAdd c a b = 0 := by
  have hneg : value c (positNeg c a) = some vb := by
    rw [value_positNeg hL.1 ha, hva, Option.map_some, ← eq_neg_of_add_eq_zero_right h]
  have hnar : a ≠ c.NAR := by
    rintro rfl
    rw [value_NAR] at hva
    cases hva
  rw [← value_inj hL.1 (positNeg_lt hL.1 ha) hb hneg hvb, positAdd_positNeg hL ha hnar]

/-- A sum of patterns that is the pattern 0 is a sum of opposite values. -/
theorem value_add_of_positAdd_eq_zero {c : Config} {a b : Nat} {va vb : ℚ} (hL : c.Legal) (ha : a < 2 ^ c.W)
    (hb : b < 2 ^ c.W) (hva : value c a = some va) (hvb : value c b = some vb) (h : positAdd c a b = 0) :
    va + vb = 0 := by
  obtain rfl | rfl | ⟨s, M, hM, rfl⟩ := pattern_cases hL.1 ha
  · obtain rfl : b = 0 := (zero_positAdd c b).symm.trans h
    cases hva
    cases hvb
    exact add_zero 0
  · rw [value_NAR] at hva; cases hva
  obtain rfl | rfl | ⟨s', N, hN, rfl⟩ := pattern_cases hL.1 hb
  · rw [positAdd_zero] at h
    exact absurd h (applySign_ne_zero hL.1 hM s)
  · rw [value_NAR] at hvb; cases hvb
  · rw [positAdd_applySign hL.1 hM hN] at h
    have := alignedReal_add_of_addReal_eq_zero hL _ _ h
    rw [alignedReal_mantissa hL, alignedReal_mantissa hL] at this
    rw [value_applySign hL.1 hM] at hva
    rw [value_applySign hL.1 hN] at hvb
    rwa [← Option.some.inj hva, ← Option.some.inj hvb]

theorem positSub_antisymm {c : Config} {a b : Nat} (hL : c.Legal) (ha : a < 2 ^ c.W) (hb : b < 2 ^ c.W) :
    positAdd c a (positNeg c b) = positNeg c (positAdd c b (positNeg c a)) := by
  obtain rfl | rfl | ⟨s, M, hM, rfl⟩ := pattern_cases hL.1 ha
  · rw [zero_positAdd, positNeg_zero, positAdd_zero]
  · rw [positAdd_NAR_left, positNeg_NAR, positAdd_NAR_right, positNeg_NAR]
  obtain rfl | rfl | ⟨s', N, hN, rfl⟩ := pattern_cases hL.1 hb
  · rw [zero_positAdd, positNeg_zero, positAdd_zero, positNeg_positNeg hL.1 ha]
  · rw [positAdd_NAR_left, positNeg_NAR, positAdd_NAR_right]
  · rw [positNeg_applySign hL.1 hM, positNeg_applySign hL.1 hN, positAdd_applySign hL.1 hM hN,
      positAdd_applySign hL.1 hN hM, ← addReal_negated hL.1, addReal_comm (two_le_MW hL),
      mantissa_not c s', mantissa_not c s]
    simp only [negated, Bool.not_not]

/-- Settles O60: negating both operands negates the sum, and only opposite values cancel. -/
theorem subtractionLaws : Obligations.SubtractionLaws := fun c _ b hL ha hb =>
  ⟨positSub_antisymm hL ha hb, zero_positAdd c (positNeg c b), fun _ _ hva hvb =>
    ⟨value_add_of_positAdd_eq_zero hL ha hb hva hvb, positAdd_eq_zero_of_value hL ha hb hva hvb⟩⟩

/-! The exact sum (R209). -/

theorem denormalize_mul {n d w : Nat} (hd : d < w - 1) (hdvd : 2 ^ d ∣ n) : denormalize n d w * 2 ^ d = n := by
  rw [denormalize, if_neg hd.not_ge, Nat.div_mul_cancel hdvd]

/-- Where the alignment drops no bit the combination encodes the exact sum. -/
theorem combine_exact {c : Config} (hL : c.Legal) {big small : Aligned} (hT : small.T ≤ big.T) (hbig : 0 < big.M)
    (hexact : alignedTo c big small * 2 ^ (big.T - small.T).toNat = small.M) {s : Bool} {T : Int} {L F : Nat}
    (hF : F < 2 ^ L) (h : alignedReal c big + alignedReal c small = signFactor s * scaled T (F / 2 ^ L)) :
    combine c big small = positEncode c { s := s, T := T, L := L, F := F } := by
  have hpos := scaled_pos T (fraction_range hF).1
  have hsmall : alignedReal c small =
      signFactor small.s * (2 ^ big.T * (alignedTo c big small / 2 ^ (c.MW - 1))) := by
    have hpow : (2 : ℚ) ^ big.T = 2 ^ small.T * 2 ^ (big.T - small.T).toNat := by
      rw [← zpow_natCast, ← zpow_add₀ two_ne_zero]
      congr 1
      omega
    rw [alignedReal, ← hexact, hpow]
    push_cast
    ring
  rw [hsmall, alignedReal] at h
  have sum_pos {S : Nat} (hS : S ≠ 0) : (0 : ℚ) < 2 ^ big.T * (S / 2 ^ (c.MW - 1)) := by
    have : (0 : ℚ) < S := by exact_mod_cast Nat.pos_of_ne_zero hS
    positivity
  -- a nonzero sum S of sign sr has the sign and the magnitude of the input
  have encode {sr : Bool} {S : Nat} (hS : S ≠ 0)
      (hsum : signFactor sr * (2 ^ big.T * (S / 2 ^ (c.MW - 1))) = signFactor s * scaled T (F / 2 ^ L)) :
      renormalize c sr big.T S = positEncode c { s := s, T := T, L := L, F := F } := by
    obtain ⟨rfl, hreal⟩ := signFactor_mul_inj (sum_pos hS) hpos hsum
    exact renormalize_eq_of_real hL sr hS hF hreal
  by_cases hs : big.s = small.s
  · rw [combine_of_eq c hs]
    refine encode (by omega) ?_
    rw [← h, ← hs]
    push_cast
    ring
  · rw [signFactor_of_ne hs] at h
    rcases lt_trichotomy big.M (alignedTo c big small) with hlt | heq | hgt
    · rw [combine_of_gt c hs hlt]
      refine encode (by omega) ?_
      rw [← h, Nat.cast_sub hlt.le, signFactor_of_ne hs]
      ring
    · rw [← heq, neg_mul, add_neg_cancel] at h
      exact absurd h.symm (mul_ne_zero (signFactor_ne_zero s) hpos.ne')
    · rw [combine_of_lt c hs hgt]
      refine encode (by omega) ?_
      rw [← h, Nat.cast_sub hgt.le]
      ring

/-- At MW_EXACT no alignment of two patterns drops a bit (R14). -/
theorem alignedTo_mantissa_exact {c : Config} (hL : c.Legal) (hMW : c.MW_EXACT ≤ c.MW) {M N : Nat} (hM : IsField c M)
    (hN : IsField c N) (s s' : Bool) :
    let big := mantissa c (partsOf c s M)
    let small := mantissa c (partsOf c s' N)
    alignedTo c big small * 2 ^ (big.T - small.T).toNat = small.M := by
  intro big small
  obtain ⟨-, hhi, -⟩ := partsOf_T_range hL.1 hM s
  obtain ⟨hlo, -⟩ := partsOf_T_range hL.1 hN s'
  have hnf := partsOf_nf_le hL s' N
  have hd : (big.T - small.T).toNat ≤ 2 * c.SMAX := by
    change ((partsOf c s M).T - (partsOf c s' N).T).toNat ≤ _
    omega
  unfold Config.MW_EXACT Config.D_MAX at hMW
  refine denormalize_mul (by omega) ?_
  rw [mantissa_M hL]
  exact Nat.dvd_add (pow_dvd_pow 2 (by omega)) ((pow_dvd_pow 2 (by omega)).mul_left _)

theorem addReal_exact {c : Config} (hL : c.Legal) (hMW : c.MW_EXACT ≤ c.MW) {M N : Nat} (hM : IsField c M)
    (hN : IsField c N) (s₁ s₂ : Bool) {s : Bool} {T : Int} {L F : Nat} (hF : F < 2 ^ L)
    (h : (partsOf c s₁ M).value + (partsOf c s₂ N).value = signFactor s * scaled T (F / 2 ^ L)) :
    addReal c (mantissa c (partsOf c s₁ M)) (mantissa c (partsOf c s₂ N)) =
      positEncode c { s := s, T := T, L := L, F := F } := by
  have hpos (x : RealParts) : 0 < (mantissa c x).M := (Nat.two_pow_pos _).trans_le (mantissa_M_range hL x).1
  rw [← alignedReal_mantissa hL, ← alignedReal_mantissa hL] at h
  rcases le_total (mantissa c (partsOf c s₂ N)).T (mantissa c (partsOf c s₁ M)).T with hT | hT
  · rw [addReal_of_le hT]
    exact combine_exact hL hT (hpos _) (alignedTo_mantissa_exact hL hMW hM hN s₁ s₂) hF h
  · rw [addReal_comm (two_le_MW hL), addReal_of_le hT]
    exact combine_exact hL hT (hpos _) (alignedTo_mantissa_exact hL hMW hN hM s₂ s₁) hF (by rwa [add_comm])

/-- Settles O58: a zero operand leaves the other's value, and two reals are aligned, combined and encoded exactly. -/
theorem addIsCorrectlyRounded : Obligations.AddIsCorrectlyRounded := by
  intro c a b va vb hL hMW ha hb hva hvb
  refine ⟨positAdd_eq_zero_of_value hL ha hb hva hvb, fun s T L F hF hsum => ?_⟩
  replace hsum : va + vb = signFactor s * scaled T (F / 2 ^ L) := hsum.trans (mul_assoc _ _ _)
  obtain rfl | rfl | ⟨s₁, M, hM, rfl⟩ := pattern_cases hL.1 ha
  · cases hva
    rw [zero_add] at hsum
    rw [zero_positAdd, positEncode_of_value hL hb hF (hsum ▸ hvb)]
  · rw [value_NAR] at hva; cases hva
  obtain rfl | rfl | ⟨s₂, N, hN, rfl⟩ := pattern_cases hL.1 hb
  · cases hvb
    rw [add_zero] at hsum
    rw [positAdd_zero, positEncode_of_value hL ha hF (hsum ▸ hva)]
  · rw [value_NAR] at hvb; cases hvb
  · rw [value_applySign hL.1 hM] at hva
    rw [value_applySign hL.1 hN] at hvb
    cases hva
    cases hvb
    rw [positAdd_applySign hL.1 hM hN]
    exact addReal_exact hL hMW hM hN s₁ s₂ hF hsum

end Sys2Proof.Proofs

/-! The invariant of every step (30_encoding.md R78, 10_state.md R41, 60_exceptions.md R231 to R235): a command's
outputs fit their ports, and its fault is explained by its word. -/

namespace Sys2Proof.Proofs

open Sys2Proof.Machine

/-! Results and counts fit (R78). -/

theorem positEncode_lt {c : Config} (hw : 2 ≤ c.W) {u : EncInput} (hF : u.F < 2 ^ u.L) : positEncode c u < 2 ^ c.W := by
  unfold positEncode
  split
  · exact NAR_lt hw
  split
  · exact Nat.two_pow_pos _
  · exact applySign_lt hw (encMagnitude_isField hw _ hF _) _

theorem combine_lt {c : Config} (hw : 2 ≤ c.W) (big small : Aligned) : combine c big small < 2 ^ c.W := by
  have hren (sr : Bool) (S : Nat) : renormalize c sr big.T S < 2 ^ c.W := positEncode_lt hw (bitsAt_lt _ _ _)
  unfold combine
  simp only
  split
  · exact hren _ _
  split
  · exact hren _ _
  split
  · exact hren _ _
  · exact Nat.two_pow_pos _

theorem positAdd_lt {c : Config} {a b : Nat} (hw : 2 ≤ c.W) (ha : a < 2 ^ c.W) (hb : b < 2 ^ c.W) :
    positAdd c a b < 2 ^ c.W := by
  obtain rfl | rfl | ⟨s, M, hM, rfl⟩ := pattern_cases hw ha
  · rwa [zero_positAdd]
  · rwa [positAdd_NAR_left]
  obtain rfl | rfl | ⟨s', N, hN, rfl⟩ := pattern_cases hw hb
  · rwa [positAdd_zero]
  · rwa [positAdd_NAR_right]
  · rw [positAdd_applySign hw hM hN, addReal]
    split
    · exact combine_lt hw _ _
    · exact combine_lt hw _ _

theorem lt_two_pow_CW {c : Config} {n : Nat} (h : n ≤ c.W) : n < 2 ^ c.CW :=
  (Nat.lt_succ_of_le h).trans_le (le_two_pow_clog2 _)

theorem partsOf_counts_le {c : Config} (hw : 2 ≤ c.W) (s : Bool) (M : Nat) :
    (partsOf c s M).c ≤ c.W ∧ (partsOf c s M).nE ≤ c.W ∧ (partsOf c s M).nf ≤ c.W := by
  have hc := (consumed_range hw (regime_m_range (f := M) hw).1).2.1
  simp only [partsOf]
  omega

theorem decPorts_fits {c : Config} (hL : c.Legal) {p : Nat} (hp : p < 2 ^ c.W) :
    (decPorts c (positDecode c p)).Fits c := by
  have hzero : DecOut.Fits c {} := by unfold DecOut.Fits; simp
  obtain rfl | rfl | ⟨s, M, hM, rfl⟩ := pattern_cases hL.1 hp
  · exact hzero
  · rw [positDecode_NAR]; exact hzero
  · obtain ⟨hc, hnE, hnf⟩ := partsOf_counts_le hL.1 s M
    have hE : 2 ^ c.E ≤ 2 ^ c.EW := Nat.pow_le_pow_right two_pos (Nat.le_max_right _ _)
    rw [positDecode_applySign hL.1 hM]
    exact ⟨signedBits_lt _ _, lt_two_pow_CW hc, lt_two_pow_CW hnE, (partsOf_e_lt c s M).trans_le hE, lt_two_pow_CW hnf,
      decFrac_lt hL s M, signedBits_lt _ _⟩

theorem denormalize_le (n sh w : Nat) : denormalize n sh w ≤ n := by
  unfold denormalize
  split
  · exact Nat.zero_le _
  · exact Nat.div_le_self _ _

/-! One driven output, and no other. -/

theorem fitsPort_some {w x : Nat} (h : x < 2 ^ w) : FitsPort w (some x) := fun _ hy => Option.mem_some_iff.1 hy ▸ h

theorem fits_none (c : Config) : Outputs.Fits c {} := ⟨nofun, nofun, nofun, nofun, nofun⟩

theorem fits_bit (c : Config) (b : Bool) : Outputs.Fits c { bit := some b } := ⟨nofun, nofun, nofun, nofun, nofun⟩

theorem fits_r {c : Config} {x : Nat} (h : x < 2 ^ c.W) : Outputs.Fits c { r := some x } :=
  ⟨fitsPort_some h, nofun, nofun, nofun, nofun⟩

theorem fits_cnt {c : Config} {x : Nat} (h : x ≤ c.W) : Outputs.Fits c { cnt := some x } :=
  ⟨nofun, fitsPort_some (lt_two_pow_CW h), nofun, nofun, nofun⟩

theorem fits_rn {c : Config} {x : Nat} (h : x < 2 ^ c.MW) : Outputs.Fits c { rn := some x } :=
  ⟨nofun, nofun, nofun, fitsPort_some h, nofun⟩

theorem fits_dec {c : Config} {d : DecOut} (h : d.Fits c) : Outputs.Fits c { dec := some d } :=
  ⟨nofun, nofun, nofun, nofun, fun _ hd => Option.mem_some_iff.1 hd ▸ h⟩

theorem fits_regime {c : Config} {f : Nat} (hw : 2 ≤ c.W) : Outputs.Fits c
    { k := some (signedBits c.KW (regime c.W f).1), cnt := some (consumed c.W (regime c.W f).2) } := by
  have hc := (consumed_range hw (regime_m_range (f := f) hw).1).2.1
  exact ⟨nofun, fitsPort_some (lt_two_pow_CW (by omega)), fitsPort_some (signedBits_lt _ _), nofun, nofun⟩

/-- Every output a completed command drives fits its port. -/
theorem effect_fits {i : Instr} {s : State} {bf : List BfBit} {o : Outputs} (hL : s.cfg.Legal)
    (hlen : s.bf.length = s.cfg.W) (h : effect i s = .ok (bf, o)) : o.Fits s.cfg := by
  cases i with
  | bfReset | bfShl | bfShr | bfLoad => cases h; exact fits_none _
  | bfSet =>
    obtain ⟨-, hx⟩ := indexed_eq_ok.1 h
    cases hx
    exact fits_none _
  | bfGet =>
    obtain ⟨-, h⟩ := indexed_eq_ok.1 h
    obtain ⟨b, -, hx⟩ := reading_eq_ok.1 h
    cases hx
    exact fits_bit _ _
  | bfRun n =>
    obtain ⟨hn, h⟩ := indexed_eq_ok.1 h
    obtain ⟨m, hm, hx⟩ := reading_eq_ok.1 h
    cases hx
    exact fits_cnt ((bfRun_range hm).2.trans hn)
  | bfRead =>
    obtain ⟨v, hv, hx⟩ := reading_eq_ok.1 h
    cases hx
    exact fits_r (hlen ▸ bfToNat_lt hv)
  | pRegime =>
    obtain ⟨_, _, hx⟩ := reading_eq_ok.1 h
    cases hx
    exact fits_regime hL.1
  | pDecode =>
    obtain ⟨_, ha, hx⟩ := reading_eq_ok.1 h
    cases hx
    exact fits_dec (decPorts_fits hL (operandA_lt hlen ha))
  | pIsZero | pIsNar =>
    obtain ⟨_, _, hx⟩ := reading_eq_ok.1 h
    cases hx
    exact fits_bit _ _
  | pEncode => cases h; exact fits_r (positEncode_lt hL.1 (bitsAt_lt _ _ _))
  | pNorm => cases h; exact fits_rn (normalize_lt _ (one_le_MW_of_legal hL))
  | pDenorm sh =>
    cases h
    exact fits_rn ((denormalize_le _ _ _).trans_lt (bitsAt_lt _ _ _))
  | pNeg =>
    obtain ⟨_, ha, hx⟩ := reading_eq_ok.1 h
    cases hx
    exact fits_r (positNeg_lt hL.1 (operandA_lt hlen ha))
  | pAdd =>
    obtain ⟨_, ha, hx⟩ := reading_eq_ok.1 h
    cases hx
    exact fits_r (positAdd_lt hL.1 (operandA_lt hlen ha) (bitsAt_lt _ _ _))
  | pSub =>
    obtain ⟨_, ha, hx⟩ := reading_eq_ok.1 h
    cases hx
    exact fits_r (positAdd_lt hL.1 (operandA_lt hlen ha) (positNeg_lt hL.1 (bitsAt_lt _ _ _)))

/-! The two ends of an issued command keep the invariant. -/

theorem inv_complete {s : State} (hs : s.Inv) (w : CmdWord) (p : Inputs) (rest : List HostMove) {bf : List BfBit}
    {o : Outputs} (hlen : bf.length = s.cfg.W) (ho : o.Fits s.cfg) :
    (((s.present w p rest).withBf bf).complete o).Inv := by
  obtain ⟨hL, -, ⟨hsorted, hexpl⟩, -⟩ := hs
  refine ⟨hL, hlen, ⟨hsorted, fun e he => ?_⟩, nofun, ?_⟩
  · obtain ⟨h1, hn, hex⟩ := hexpl e he
    exact ⟨h1, Nat.le_succ_of_le hn, hex⟩
  · rintro r ⟨rfl⟩
    exact ⟨nofun, fun _ => ⟨rfl, ho, fun e he => Nat.lt_succ_of_le (hexpl e he).2.1⟩⟩

theorem inv_raise {s : State} (hs : s.Inv) (w : CmdWord) (p : Inputs) (rest : List HostMove) {c : Cause}
    (hc : FaultEntry.explained s.cfg { n := s.seq + 1, cmd := w, cause := c } = true) :
    ((s.present w p rest).raise c).Inv := by
  obtain ⟨hL, hlen, ⟨hsorted, hexpl⟩, -⟩ := hs
  refine ⟨hL, hlen, ⟨?_, ?_⟩, nofun, ?_⟩
  · refine List.pairwise_append.2 ⟨hsorted, List.pairwise_singleton _ _, fun e he e' he' => ?_⟩
    rw [List.mem_singleton.1 he']
    exact Nat.lt_succ_of_le (hexpl e he).2.1
  · refine List.forall_mem_append.2 ⟨fun e he => ?_, List.forall_mem_singleton.2 ⟨Nat.le_add_left 1 _, le_rfl, hc⟩⟩
    obtain ⟨h1, hn, hex⟩ := hexpl e he
    exact ⟨h1, Nat.le_succ_of_le hn, hex⟩
  · rintro r ⟨rfl⟩
    exact ⟨fun _ => ⟨{ n := s.seq + 1, cmd := w, cause := c }, by simp, rfl, rfl, rfl, rfl⟩, nofun⟩

/-- A command's fault is one its word can raise (60_exceptions.md R233 to R235). -/
theorem explained_of_effect_error {i : Instr} {s : State} {w : CmdWord} {n : Nat} {c : Cause} (hd : decode w = .ok i)
    (h : effect i s = .error c) : FaultEntry.explained s.cfg { n := n, cmd := w, cause := c } = true := by
  rcases effect_error h with ⟨rfl, j, hj, hle⟩ | ⟨rfl, hreads, hindex⟩
  · simp [FaultEntry.explained, hd, hj, hle]
  · simp only [FaultEntry.explained, hd, hreads, Bool.true_and]
    cases hi : checkedIndex i with
    | none => rfl
    | some j => simpa using hindex j hi

/-- Settles O11: a reset empties the record and the response, and a command completes with outputs that fit or faults
with a cause its word explains. -/
theorem stepKeepsTheInvariant : Obligations.StepKeepsTheInvariant := by
  intro s t hs h
  obtain ⟨hL, ⟨rest, -, rfl⟩ | ⟨w, p, rest, i, -, hd, hx⟩ | ⟨w, p, rest, r, -, hd, rfl⟩⟩ := step_next_cases h
  · exact inv_of_no_response hL List.length_replicate rfl rfl
  · have hlen : (s.present w p rest).bf.length = (s.present w p rest).cfg.W := hs.2.1
    obtain ⟨bf, o, he, rfl⟩ | ⟨c, he, rfl⟩ := exec_next_cases hx
    · have hfits : o.Fits s.cfg := effect_fits (s := s.present w p rest) hL hlen he
      exact inv_complete hs w p rest (effect_bf_length (s := s.present w p rest) hlen he) hfits
    · exact inv_raise hs w p rest (explained_of_effect_error (s := s.present w p rest) hd he)
  · exact inv_raise hs w p rest (by simp [FaultEntry.explained, hd])

end Sys2Proof.Proofs
